-- ==== Sys2Proof/Word.lean ====
section
/-! DEFINITION. The two widths of the machine: the 16-bit word (a register, a memory word, an instruction, an
address: 00_scope.md R4) and the 8-bit byte of the input and output streams (45_trap.md R139). -/

namespace Sys2Proof

/-- A register, a memory word, an instruction word or an address (R4: `WORD` = `ADDR` = 16). -/
abbrev Word := BitVec 16

/-- A byte of the input or output stream, and a trap code (R4, R139). -/
abbrev Byte := BitVec 8

end Sys2Proof
end

