-- ==== Sys2Proof/Config.lean ====
section
/-! DEFINITION. The parameters the source names and gives no value for (00_scope.md R5, 93 part 2): a record every
definition takes its values from, so that no statement bakes a default in. -/

namespace Sys2Proof

/-- The parameters of R5 whose value the source leaves open (D4 to D7, D11). Opcode numbers, field positions and
the pairing of the condition bits are fixed by the spec (D1 to D3) and are no parameters. -/
structure Config where
  /-- `PC_START`, the address of the first instruction. -/
  pcStart : Word
  /-- `KBSR_ADDR`, the address of the keyboard status word. -/
  kbsrAddr : Word
  /-- `KBDR_ADDR`, the address of the keyboard data word. -/
  kbdrAddr : Word
  /-- `KBSR_READY`, the ready value of the status word, bit 15 set. -/
  kbsrReady : Word
  trapGetc : Byte
  trapOut : Byte
  trapPuts : Byte
  trapIn : Byte
  trapPutsp : Byte
  trapHalt : Byte
  /-- `IN_PROMPT`, the bytes IN prints before it reads. -/
  inPrompt : List Byte
  /-- `HALT_NOTICE`, the bytes HALT prints. -/
  haltNotice : List Byte
  deriving DecidableEq, Repr

namespace Config

/-- The six trap numbers in the source's order {GETC, OUT, PUTS, IN, PUTSP, HALT} (R4, R5). -/
def trapNumbers (c : Config) : List Byte :=
  [c.trapGetc, c.trapOut, c.trapPuts, c.trapIn, c.trapPutsp, c.trapHalt]

/-- What R5, D6 and D7 require of a configuration: the device addresses differ, the ready value has its high bit
set, the six trap numbers are pairwise distinct. -/
abbrev wf (c : Config) : Prop :=
  c.kbsrAddr ≠ c.kbdrAddr ∧ c.kbsrReady.msb = true ∧ c.trapNumbers.Nodup

/-- The defaults of R5. PRESUMED (the spec marks each "from general knowledge, not in source"); log 2. -/
def default : Config where
  pcStart := 0x3000
  kbsrAddr := 0xFE00
  kbdrAddr := 0xFE02
  kbsrReady := 0x8000
  trapGetc := 0x20
  trapOut := 0x21
  trapPuts := 0x22
  trapIn := 0x23
  trapPutsp := 0x24
  trapHalt := 0x25
  inPrompt := [0x45, 0x6E, 0x74, 0x65, 0x72, 0x20, 0x61, 0x20, 0x63, 0x68, 0x61, 0x72, 0x61, 0x63, 0x74, 0x65,
    0x72, 0x3A, 0x20]
  haltNotice := [0x48, 0x41, 0x4C, 0x54, 0x0A]

end Config

end Sys2Proof
end

