-- ==== Sys2Proof/Syntax.lean ====
section
/-! DEFINITION. The instructions as syntax: the eight register names, the sixteen opcodes, and one constructor of
`Instr` for each of the 25 rows of spec/opcode_table.json. -/

namespace Sys2Proof

/-- The eight general registers (10_state.md R10). A 3-bit selector names all eight and nothing else. -/
inductive Reg where
  | r0 | r1 | r2 | r3 | r4 | r5 | r6 | r7
  deriving DecidableEq, Repr

/-- The sixteen opcodes in the order of 30_encoding.md R61. -/
inductive Opcode where
  | br | add | ld | st | jsr | and | ldr | str | rti | not | ldi | sti | jmp | res | lea | trap
  deriving DecidableEq, Repr

/-- One constructor for each row of the opcode table. Fields are those of 30_encoding.md R62; the bits that R63
marks `-` are not kept, since no behaviour depends on them (R66). -/
inductive Instr where
  /-- ADD, register form (R91). -/
  | addReg (dr sr1 sr2 : Reg)
  /-- ADD, immediate form (R92). -/
  | addImm (dr sr1 : Reg) (imm5 : BitVec 5)
  /-- AND, register form (R93). -/
  | andReg (dr sr1 sr2 : Reg)
  /-- AND, immediate form (R94). -/
  | andImm (dr sr1 : Reg) (imm5 : BitVec 5)
  /-- NOT (R95). -/
  | not (dr sr : Reg)
  /-- BR with its three condition bits (R100). -/
  | br (n z p : Bool) (pcOffset9 : BitVec 9)
  /-- JMP; RET is JMP R7 (R101). -/
  | jmp (baseR : Reg)
  /-- JSR, the `long` = 1 form of opcode 0100 (R102). -/
  | jsr (pcOffset11 : BitVec 11)
  /-- JSRR, the `long` = 0 form of opcode 0100 (R103). -/
  | jsrr (baseR : Reg)
  /-- LD (R110). -/
  | ld (dr : Reg) (pcOffset9 : BitVec 9)
  /-- LDI (R111). -/
  | ldi (dr : Reg) (pcOffset9 : BitVec 9)
  /-- LDR (R112). -/
  | ldr (dr baseR : Reg) (offset6 : BitVec 6)
  /-- LEA (R113). -/
  | lea (dr : Reg) (pcOffset9 : BitVec 9)
  /-- ST (R120). -/
  | st (sr : Reg) (pcOffset9 : BitVec 9)
  /-- STI (R121). -/
  | sti (sr : Reg) (pcOffset9 : BitVec 9)
  /-- STR (R122). -/
  | str (sr baseR : Reg) (offset6 : BitVec 6)
  /-- TRAP with the code of GETC (R131). -/
  | getc
  /-- TRAP with the code of OUT (R132). -/
  | out
  /-- TRAP with the code of PUTS (R133). -/
  | puts
  /-- TRAP with the code of IN (R134). -/
  | in_
  /-- TRAP with the code of PUTSP (R135). -/
  | putsp
  /-- TRAP with the code of HALT (R136). -/
  | halt
  /-- TRAP with any other code (R137). -/
  | trap (code : Byte)
  /-- RTI, reserved (R150). -/
  | rti
  /-- RES, reserved (R151). -/
  | res
  deriving DecidableEq, Repr

end Sys2Proof
end

