-- ==== Sys2Proof/WellFormed.lean ====
section
/-! DEFINITION. Which terms of `Instr` are instructions of a machine with a given configuration. Register selectors
and immediates carry their widths in their types (30_encoding.md R65), so one check is left: the catch-all row TRAP is
for a code that is none of the six (45_trap.md R137). -/

namespace Sys2Proof

/-- `code` is none of the six trap numbers (R137). -/
def Config.unknownTrap (c : Config) (code : Byte) : Bool := !c.trapNumbers.contains code

/-- The instruction is one that some word encodes under the configuration `c`. -/
def Instr.wf (c : Config) : Instr → Bool
  | .addReg _ _ _ => true
  | .addImm _ _ _ => true
  | .andReg _ _ _ => true
  | .andImm _ _ _ => true
  | .not _ _ => true
  | .br _ _ _ _ => true
  | .jmp _ => true
  | .jsr _ => true
  | .jsrr _ => true
  | .ld _ _ => true
  | .ldi _ _ => true
  | .ldr _ _ _ => true
  | .lea _ _ => true
  | .st _ _ => true
  | .sti _ _ => true
  | .str _ _ _ => true
  | .getc => true
  | .out => true
  | .puts => true
  | .in_ => true
  | .putsp => true
  | .halt => true
  | .trap code => c.unknownTrap code
  | .rti => true
  | .res => true

end Sys2Proof
end

