-- ==== Sys2Proof/Decode.lean ====
section
/-! DEFINITION. The decoder, total on all 65536 words (30_encoding.md R72), and after it the encoder, written from the
same table of fields (R62, R63). Both take the configuration, since the six trap numbers are parameters (R5). -/

namespace Sys2Proof

/-! ## Fields of an instruction word (R62) -/

/-- The register a 3-bit selector names (R65). -/
def Reg.ofBits (b : BitVec 3) : Reg :=
  match b.toNat with
  | 0 => .r0
  | 1 => .r1
  | 2 => .r2
  | 3 => .r3
  | 4 => .r4
  | 5 => .r5
  | 6 => .r6
  | _ => .r7

/-- The 3-bit selector of a register. -/
def Reg.toBits : Reg → BitVec 3
  | .r0 => 0
  | .r1 => 1
  | .r2 => 2
  | .r3 => 3
  | .r4 => 4
  | .r5 => 5
  | .r6 => 6
  | .r7 => 7

/-- The opcode a 4-bit number selects (R61). -/
def Opcode.ofBits (b : BitVec 4) : Opcode :=
  match b.toNat with
  | 0 => .br
  | 1 => .add
  | 2 => .ld
  | 3 => .st
  | 4 => .jsr
  | 5 => .and
  | 6 => .ldr
  | 7 => .str
  | 8 => .rti
  | 9 => .not
  | 10 => .ldi
  | 11 => .sti
  | 12 => .jmp
  | 13 => .res
  | 14 => .lea
  | _ => .trap

/-- The number of an opcode (R61): its position in the source's list (D1). -/
def Opcode.toBits : Opcode → BitVec 4
  | .br => 0x0
  | .add => 0x1
  | .ld => 0x2
  | .st => 0x3
  | .jsr => 0x4
  | .and => 0x5
  | .ldr => 0x6
  | .str => 0x7
  | .rti => 0x8
  | .not => 0x9
  | .ldi => 0xA
  | .sti => 0xB
  | .jmp => 0xC
  | .res => 0xD
  | .lea => 0xE
  | .trap => 0xF

namespace Field

/-- `ir[15:12]`. -/
def opcode (ir : Word) : BitVec 4 := ir.extractLsb' 12 4
/-- `ir[11:9]`: DR, or SR of a store. -/
def dr (ir : Word) : Reg := Reg.ofBits (ir.extractLsb' 9 3)
/-- `ir[8:6]`: SR1, SR of NOT, BaseR. -/
def baseR (ir : Word) : Reg := Reg.ofBits (ir.extractLsb' 6 3)
/-- `ir[2:0]`: SR2. -/
def sr2 (ir : Word) : Reg := Reg.ofBits (ir.extractLsb' 0 3)
/-- `ir[5]`: the mode bit of ADD and AND. -/
def mode (ir : Word) : Bool := ir.getLsbD 5
/-- `ir[11]`: the long-call bit of JSR, and `n` of BR. -/
def bit11 (ir : Word) : Bool := ir.getLsbD 11
/-- `ir[10]`: `z` of BR. -/
def bit10 (ir : Word) : Bool := ir.getLsbD 10
/-- `ir[9]`: `p` of BR. -/
def bit9 (ir : Word) : Bool := ir.getLsbD 9
/-- `ir[4:0]`. -/
def imm5 (ir : Word) : BitVec 5 := ir.extractLsb' 0 5
/-- `ir[5:0]`. -/
def offset6 (ir : Word) : BitVec 6 := ir.extractLsb' 0 6
/-- `ir[8:0]`. -/
def pcOffset9 (ir : Word) : BitVec 9 := ir.extractLsb' 0 9
/-- `ir[10:0]`. -/
def pcOffset11 (ir : Word) : BitVec 11 := ir.extractLsb' 0 11
/-- `ir[7:0]`. -/
def trapvect8 (ir : Word) : Byte := ir.extractLsb' 0 8

end Field

/-! ## Decoding (R72) -/

/-- The row of a TRAP instruction by its code, the six tried in the order of 45_trap.md R130. -/
def decodeTrap (c : Config) (code : Byte) : Instr :=
  if code = c.trapGetc then .getc
  else if code = c.trapOut then .out
  else if code = c.trapPuts then .puts
  else if code = c.trapIn then .in_
  else if code = c.trapPutsp then .putsp
  else if code = c.trapHalt then .halt
  else .trap code

/-- The instruction a word encodes (R72). Every word encodes one: all 16 opcodes are assigned (R61), and the reserved
ones are rows of the table whose meaning is the fault (R150, R151). -/
def decode (c : Config) (ir : Word) : Instr :=
  match Opcode.ofBits (Field.opcode ir) with
  | .br => .br (Field.bit11 ir) (Field.bit10 ir) (Field.bit9 ir) (Field.pcOffset9 ir)
  | .add =>
    if Field.mode ir then .addImm (Field.dr ir) (Field.baseR ir) (Field.imm5 ir)
    else .addReg (Field.dr ir) (Field.baseR ir) (Field.sr2 ir)
  | .ld => .ld (Field.dr ir) (Field.pcOffset9 ir)
  | .st => .st (Field.dr ir) (Field.pcOffset9 ir)
  | .jsr => if Field.bit11 ir then .jsr (Field.pcOffset11 ir) else .jsrr (Field.baseR ir)
  | .and =>
    if Field.mode ir then .andImm (Field.dr ir) (Field.baseR ir) (Field.imm5 ir)
    else .andReg (Field.dr ir) (Field.baseR ir) (Field.sr2 ir)
  | .ldr => .ldr (Field.dr ir) (Field.baseR ir) (Field.offset6 ir)
  | .str => .str (Field.dr ir) (Field.baseR ir) (Field.offset6 ir)
  | .rti => .rti
  | .not => .not (Field.dr ir) (Field.baseR ir)
  | .ldi => .ldi (Field.dr ir) (Field.pcOffset9 ir)
  | .sti => .sti (Field.dr ir) (Field.pcOffset9 ir)
  | .jmp => .jmp (Field.baseR ir)
  | .res => .res
  | .lea => .lea (Field.dr ir) (Field.pcOffset9 ir)
  | .trap => decodeTrap c (Field.trapvect8 ir)

/-- The host's entry: the instruction of a word numbered as spec/opcode_table.json numbers it. Bits above `nbits` are
zero. The table's trap rows are computed from the default trap numbers (R72), so the default configuration is meant.
An instruction is one word (R60): more than 16 bits is none. -/
def decodeTableWord (nbits w : Nat) : Option Instr :=
  if nbits ≤ 16 then some (decode Config.default (BitVec.ofNat 16 (w % 2 ^ nbits))) else none

/-! ## Encoding (R63) -/

/-- The opcode of a row (R61). -/
def Instr.opcode : Instr → Opcode
  | .addReg _ _ _ => .add
  | .addImm _ _ _ => .add
  | .andReg _ _ _ => .and
  | .andImm _ _ _ => .and
  | .not _ _ => .not
  | .br _ _ _ _ => .br
  | .jmp _ => .jmp
  | .jsr _ => .jsr
  | .jsrr _ => .jsr
  | .ld _ _ => .ld
  | .ldi _ _ => .ldi
  | .ldr _ _ _ => .ldr
  | .lea _ _ => .lea
  | .st _ _ => .st
  | .sti _ _ => .sti
  | .str _ _ _ => .str
  | .getc => .trap
  | .out => .trap
  | .puts => .trap
  | .in_ => .trap
  | .putsp => .trap
  | .halt => .trap
  | .trap _ => .trap
  | .rti => .rti
  | .res => .res

/-- The word of a TRAP with a code; bits 11 to 8 are zero (R63). -/
def encodeTrap (code : Byte) : Word := Opcode.trap.toBits ++ (0 : BitVec 4) ++ code

/-- The word of an instruction, from the pattern strings of R63. The `-` bits are what the conventional assembler
writes (R63: ones in NOT, zeros elsewhere); log 11. -/
def encode (c : Config) : Instr → Word
  | .addReg dr sr1 sr2 =>
    Opcode.add.toBits ++ dr.toBits ++ sr1.toBits ++ (0 : BitVec 1) ++ (0 : BitVec 2) ++ sr2.toBits
  | .addImm dr sr1 imm5 => Opcode.add.toBits ++ dr.toBits ++ sr1.toBits ++ (1 : BitVec 1) ++ imm5
  | .andReg dr sr1 sr2 =>
    Opcode.and.toBits ++ dr.toBits ++ sr1.toBits ++ (0 : BitVec 1) ++ (0 : BitVec 2) ++ sr2.toBits
  | .andImm dr sr1 imm5 => Opcode.and.toBits ++ dr.toBits ++ sr1.toBits ++ (1 : BitVec 1) ++ imm5
  | .not dr sr => Opcode.not.toBits ++ dr.toBits ++ sr.toBits ++ (0x3F : BitVec 6)
  | .br n z p off => Opcode.br.toBits ++ BitVec.ofBool n ++ BitVec.ofBool z ++ BitVec.ofBool p ++ off
  | .jmp baseR => Opcode.jmp.toBits ++ (0 : BitVec 3) ++ baseR.toBits ++ (0 : BitVec 6)
  | .jsr off => Opcode.jsr.toBits ++ (1 : BitVec 1) ++ off
  | .jsrr baseR => Opcode.jsr.toBits ++ (0 : BitVec 1) ++ (0 : BitVec 2) ++ baseR.toBits ++ (0 : BitVec 6)
  | .ld dr off => Opcode.ld.toBits ++ dr.toBits ++ off
  | .ldi dr off => Opcode.ldi.toBits ++ dr.toBits ++ off
  | .ldr dr baseR off => Opcode.ldr.toBits ++ dr.toBits ++ baseR.toBits ++ off
  | .lea dr off => Opcode.lea.toBits ++ dr.toBits ++ off
  | .st sr off => Opcode.st.toBits ++ sr.toBits ++ off
  | .sti sr off => Opcode.sti.toBits ++ sr.toBits ++ off
  | .str sr baseR off => Opcode.str.toBits ++ sr.toBits ++ baseR.toBits ++ off
  | .getc => encodeTrap c.trapGetc
  | .out => encodeTrap c.trapOut
  | .puts => encodeTrap c.trapPuts
  | .in_ => encodeTrap c.trapIn
  | .putsp => encodeTrap c.trapPutsp
  | .halt => encodeTrap c.trapHalt
  | .trap code => encodeTrap code
  | .rti => Opcode.rti.toBits ++ (0 : BitVec 12)
  | .res => Opcode.res.toBits ++ (0 : BitVec 12)

/-- The bits of its word that the decoder looks at: the ones R63 does not mark `-`. -/
def Instr.usedBits : Instr → Word
  | .addReg _ _ _ => 0xFFE7
  | .addImm _ _ _ => 0xFFFF
  | .andReg _ _ _ => 0xFFE7
  | .andImm _ _ _ => 0xFFFF
  | .not _ _ => 0xFFC0
  | .br _ _ _ _ => 0xFFFF
  | .jmp _ => 0xF1C0
  | .jsr _ => 0xFFFF
  | .jsrr _ => 0xF9C0
  | .ld _ _ => 0xFFFF
  | .ldi _ _ => 0xFFFF
  | .ldr _ _ _ => 0xFFFF
  | .lea _ _ => 0xFFFF
  | .st _ _ => 0xFFFF
  | .sti _ _ => 0xFFFF
  | .str _ _ _ => 0xFFFF
  | .getc => 0xF0FF
  | .out => 0xF0FF
  | .puts => 0xF0FF
  | .in_ => 0xF0FF
  | .putsp => 0xF0FF
  | .halt => 0xF0FF
  | .trap _ => 0xF0FF
  | .rti => 0xF000
  | .res => 0xF000

end Sys2Proof
end

