-- ==== Sys2Proof/Machine/State.lean ====
section
/-! DEFINITION. The whole state of the core (10_state.md), the host's two byte streams as the core sees them (R22), and
the reset state (R24). Everything is plain data. -/

namespace Sys2Proof.Machine

/-- The eight general registers, each 16 bits, none hardwired (R10). -/
structure RegFile where
  r0 : Word
  r1 : Word
  r2 : Word
  r3 : Word
  r4 : Word
  r5 : Word
  r6 : Word
  r7 : Word
  deriving DecidableEq, Repr

/-- The condition register (R15): no flag (only between reset and the first flagged write), NEGATIVE, ZERO or
POSITIVE. R15 allows the enumeration, since nothing reads a numeric value but BR's test. -/
inductive Cond where
  | none | n | z | p
  deriving DecidableEq, Repr

/-- The run state (R18). HALTED and FAULTED are terminal. -/
inductive RunState where
  | running | halted | faulted
  deriving DecidableEq, Repr

/-- The causes of 60_exceptions.md R160 with the value each records. The last two are named by the spec and
unreachable: no definition of this model raises them (log 10). -/
inductive FaultCause where
  /-- 1, raised by RTI and RES; records the 4-bit opcode. -/
  | reservedOpcode (opcode : BitVec 4)
  /-- 2, raised by TRAP with an unknown code; records the code. -/
  | unknownTrap (code : Byte)
  /-- 3, unreachable: all 16 opcodes are assigned (R67). -/
  | unknownOpcode (opcode : BitVec 4)
  /-- 4, unreachable: indices and addresses are in range (R36, R65). -/
  | internalError
  deriving DecidableEq, Repr

/-- The fault record (R19): the cause with its value, and the address the faulting instruction was fetched from. -/
structure FaultRecord where
  cause : FaultCause
  faultPc : Word
  deriving DecidableEq, Repr

/-- A trap routine that never completes with the answers its host has to give (R133, R139, R190): the step that began it
never ends (R6). The model's own, logs 6 and 7. -/
inductive Routine where
  /-- GETC waits in `InRead` for a byte (R131). -/
  | getc
  /-- IN, its prompt printed, waits in `InRead` for a byte (R134). -/
  | in_
  /-- PUTS over a string without an end has come to address `a` (R133). -/
  | puts (a : Word)
  /-- PUTSP over a string without an end has read the word `w` at `a` (R135). -/
  | putsp (w a : Word)
  deriving DecidableEq, Repr

/-- One cell of memory: a word address and the word there. The smallest addressable unit is the 16-bit word and no
byte order exists (20_memory.md R31, R37), so a cell holds a word, not a byte; log 4. -/
abbrev WordCell := Nat × Word

/-- The 65536 words (R20, R30), sparsely: a list of cells in canonical form (`Memory.wf`). -/
abbrev Memory := List WordCell

/-- What an unlisted address reads as: memory is zero-filled at reset (R24). -/
abbrev Memory.unlisted : Word := 0

/-- The canonical form: addresses strictly rising and inside the 65536 words, no cell equal to what an unlisted address
reads as. -/
abbrev Memory.wf (m : Memory) : Prop :=
  m.Pairwise (fun c d => c.1 < d.1) ∧ ∀ c ∈ m, c.1 < 65536 ∧ c.2 ≠ Memory.unlisted

/-- The machine. Every field but the last and `routine` is a piece of state of 10_state.md. -/
structure State where
  /-- R0 to R7 (R10). -/
  regs : RegFile
  /-- The program counter (R13). -/
  pc : Word
  /-- The condition register (R15). -/
  cond : Cond
  /-- The memory, the two keyboard cells included (R20, R21). -/
  mem : Memory
  /-- The run state (R18). -/
  run : RunState
  /-- The fault record, present from the fault on (R19). -/
  fault : Option FaultRecord
  /-- The trap routine that is running for ever inside its step, if one is (R139, R133); logs 6 and 7. -/
  routine : Option Routine
  /-- The host's coming answers, in order: `none` is "no byte available" to a poll, `some b` is the next byte of the
  input stream (R22, R48, R139); log 5. -/
  input : List (Option Byte)
  /-- The host's answers after those, over and over; none listed: no byte for ever (R139, R190); log 5. -/
  inputCycle : List (Option Byte)
  /-- How many bytes of the input stream have been consumed (R22). -/
  consumed : Nat
  /-- The bytes appended to the output stream, oldest first (R22, R139). -/
  output : List Byte
  /-- How many bytes of the output the last `OutFlush` marked as delivered (R139); log 9. -/
  flushed : Nat
  /-- The parameters of the machine (00_scope.md R5); no step changes them; log 1. -/
  cfg : Config
  deriving DecidableEq, Repr

/-- Why a step of the model stops with a fault outcome: for no reason. The faults of 60_exceptions.md are NOT here: R161
describes their entry, so the model takes them (run state FAULTED, fault record written); log 10. No step ends in a fault
outcome, which is safe: nothing the spec lets go on is stopped. -/
inductive Fault where
  deriving DecidableEq, Repr

/-- Why an image is not loaded (70_reset_and_hazards.md R182, R183, D20). -/
inductive LoadError where
  /-- The file cannot be opened. -/
  | unreadable
  /-- Shorter than two bytes: no origin. -/
  | tooShort
  /-- An odd number of bytes. -/
  | oddLength
  /-- origin + number of data words exceeds 0xFFFF. -/
  | pastTop
  deriving DecidableEq, Repr

/-- Why the model gives no next state for a reason other than a fault. -/
inductive Refusal where
  /-- An instruction without a meaning; raised by `exec`'s rejected arms, of which there are none. Safe. -/
  | notModelled (mnemonic : String)
  /-- A launch the loader refuses (R168, R183); raised by `launch`, never by a step. Safe. -/
  | launchRefused (reason : LoadError)
  deriving DecidableEq, Repr

/-- The state before the first fetch of a run with configuration `c` and no image (R24, R180). -/
def State.init (c : Config) : State where
  regs := ⟨0, 0, 0, 0, 0, 0, 0, 0⟩
  pc := c.pcStart
  cond := .none
  mem := []
  run := .running
  fault := Option.none
  routine := Option.none
  input := []
  inputCycle := []
  consumed := 0
  output := []
  flushed := 0
  cfg := c

/-- The machine right after reset: R24 under the default parameters of R5 (logs 2 and 5). -/
def State.reset : State := State.init Config.default

end Sys2Proof.Machine
end

