-- ==== Sys2Proof/Machine/Operands.lean ====
section
/-! DEFINITION. Sign and zero extension (30_encoding.md R64, 00_scope.md section 5), the halves of a word (20_memory.md
R31), 16-bit addition (R41, R90) and the two effective-address forms of 43_loads.md. -/

namespace Sys2Proof.Machine

/-- 16-bit addition with wraparound: the source's `compute_effective_address` (R41), the addition of ADD (R90) and
the increment of `pc` (R14). -/
def add16 (a b : Word) : Word := a + b

/-- `sext_5` (R64). -/
def sext5 (v : BitVec 5) : Word := v.signExtend 16

/-- `sext_6` (R64). -/
def sext6 (v : BitVec 6) : Word := v.signExtend 16

/-- `sext_9` (R64). -/
def sext9 (v : BitVec 9) : Word := v.signExtend 16

/-- `sext_11` (R64). -/
def sext11 (v : BitVec 11) : Word := v.signExtend 16

/-- `zext_8` (00_scope.md section 5): the word `0x00 ++ b`, its upper byte zero. -/
def zext8 (b : Byte) : Word := b.setWidth 16

/-- `w[7:0]` (R31). -/
def lowByte (w : Word) : Byte := w.extractLsb' 0 8

/-- `w[15:8]` (R31). -/
def highByte (w : Word) : Byte := w.extractLsb' 8 8

/-- The register file read at a register (R10). -/
def RegFile.get (f : RegFile) : Reg → Word
  | .r0 => f.r0
  | .r1 => f.r1
  | .r2 => f.r2
  | .r3 => f.r3
  | .r4 => f.r4
  | .r5 => f.r5
  | .r6 => f.r6
  | .r7 => f.r7

/-- The register file with all 16 bits of one register replaced (R10). -/
def RegFile.set (f : RegFile) (r : Reg) (v : Word) : RegFile :=
  match r with
  | .r0 => { f with r0 := v }
  | .r1 => { f with r1 := v }
  | .r2 => { f with r2 := v }
  | .r3 => { f with r3 := v }
  | .r4 => { f with r4 := v }
  | .r5 => { f with r5 := v }
  | .r6 => { f with r6 := v }
  | .r7 => { f with r7 := v }

/-- `R[r]` (R10). -/
def State.reg (s : State) (r : Reg) : Word := s.regs.get r

/-- The PC-relative address of a 9-bit offset, `pc` being the incremented value while a handler runs (R13, R81). -/
def pcRelative9 (s : State) (off : BitVec 9) : Word := add16 s.pc (sext9 off)

/-- The PC-relative address of JSR's 11-bit offset (R102). -/
def pcRelative11 (s : State) (off : BitVec 11) : Word := add16 s.pc (sext11 off)

/-- The base plus offset address of LDR and STR (R112, R122). -/
def baseOffset6 (s : State) (baseR : Reg) (off : BitVec 6) : Word := add16 (s.reg baseR) (sext6 off)

end Sys2Proof.Machine
end

