-- ==== Sys2Proof/Machine/Flags.lean ====
section
/-! DEFINITION. The condition register: how a value sets it (10_state.md R16) and how BR tests it (42_control.md
R100). -/

namespace Sys2Proof.Machine

/-- The flag `setcc` stores for a value (R16): ZERO for 0x0000, NEGATIVE if bit 15 is set, POSITIVE otherwise. -/
def Cond.ofWord (v : Word) : Cond :=
  if v = 0 then .z else if v.msb then .n else .p

/-- The condition register as the three bits `n z p` of R15. -/
def Cond.bits : Cond → BitVec 3
  | .none => 0b000
  | .n => 0b100
  | .z => 0b010
  | .p => 0b001

/-- BR's condition bits `ir[11:9]` as one 3-bit number. -/
def conditionBits (n z p : Bool) : BitVec 3 := BitVec.ofBool n ++ BitVec.ofBool z ++ BitVec.ofBool p

/-- BR is taken: `(ir[11:9] AND cond) != 0b000` (R100). -/
def branchTaken (n z p : Bool) (c : Cond) : Bool := conditionBits n z p &&& c.bits != 0

end Sys2Proof.Machine
end

