-- ==== Sys2Proof/Machine/Memory.lean ====
section
/-! DEFINITION. One word of memory read and written in the canonical list, without side effect: the backing cell `M[a]`
of 10_state.md R20. Instructions reach memory only through `memRead` and `memWrite` of Machine/Ops.lean. -/

namespace Sys2Proof.Machine

/-- The word at a key of the list. -/
def Memory.readAt : Memory → Nat → Word
  | [], _ => Memory.unlisted
  | c :: m, k => if c.1 = k then c.2 else Memory.readAt m k

/-- The list with the word at a key replaced; a word equal to what an unlisted address reads as is not listed. -/
def Memory.writeAt : Memory → Nat → Word → Memory
  | [], k, v => if v = Memory.unlisted then [] else [(k, v)]
  | c :: m, k, v =>
    if k < c.1 then (if v = Memory.unlisted then c :: m else (k, v) :: c :: m)
    else if c.1 = k then (if v = Memory.unlisted then m else (k, v) :: m)
    else c :: Memory.writeAt m k v

/-- `M[a]` (R20). -/
def Memory.read (m : Memory) (a : Word) : Word := m.readAt a.toNat

/-- `M[a] <- v` (R20). -/
def Memory.write (m : Memory) (a : Word) (v : Word) : Memory := m.writeAt a.toNat v

end Sys2Proof.Machine
end

