-- ==== Sys2Proof/Machine/Ops.lean ====
section
/-! DEFINITION. The named operations every meaning is built from: register and field updates, memory with its one
device side effect (20_memory.md), the four I/O operations (45_trap.md R139), taking a fault (60_exceptions.md R161)
and the fetch (40_execution_cycle.md R80). -/

namespace Sys2Proof.Machine

/-! ## Updates of one field -/

/-- `R[r] <- v` (R10): no flag is touched. -/
def State.setReg (s : State) (r : Reg) (v : Word) : State := { s with regs := s.regs.set r v }

/-- `pc <- target` (R13). -/
def State.setPc (s : State) (a : Word) : State := { s with pc := a }

/-- The condition register replaced (R15). -/
def State.setCond (s : State) (c : Cond) : State := { s with cond := c }

/-- The memory replaced. -/
def State.setMem (s : State) (m : Memory) : State := { s with mem := m }

/-- The run state replaced (R18). -/
def State.setRun (s : State) (r : RunState) : State := { s with run := r }

/-- The fault record written (R19). -/
def State.setFault (s : State) (f : FaultRecord) : State := { s with fault := some f }

/-- Which trap routine runs for ever inside its step, if one does (logs 6 and 7). -/
def State.setRoutine (s : State) (w : Option Routine) : State := { s with routine := w }

/-- The host's coming answers replaced, nothing consumed. -/
def State.setInput (s : State) (i : List (Option Byte)) : State := { s with input := i }

/-- The host's answers after the listed ones replaced. -/
def State.setInputCycle (s : State) (c : List (Option Byte)) : State := { s with inputCycle := c }

/-- One byte of the input stream consumed, `i` being what is left (R22). -/
def State.consume (s : State) (i : List (Option Byte)) : State :=
  { s with input := i, consumed := s.consumed + 1 }

/-- A flagged write (R16, R17): the register is written, then `setcc` of the value. -/
def State.writeFlagged (s : State) (r : Reg) (v : Word) : State := (s.setReg r v).setCond (Cond.ofWord v)

/-! ## The input and output operations (R139) -/

/-- `Out(b)`: append a byte to the output stream. -/
def State.out (s : State) (b : Byte) : State := { s with output := s.output ++ [b] }

/-- `Out` of each byte of a string in order. -/
def State.outAll (s : State) (bs : List Byte) : State := { s with output := s.output ++ bs }

/-- `OutFlush()`: every byte appended so far has been delivered. -/
def State.outFlush (s : State) : State := { s with flushed := s.output.length }

/-- The host's coming answers; where none is left, those it gives over and over. -/
def State.coming (s : State) : List (Option Byte) :=
  match s.input with
  | [] => s.inputCycle
  | x :: rest => x :: rest

/-- `InPoll()`: the host's next answer, without waiting. A host without an answer to come has no byte. -/
def inPoll (s : State) : Option Byte × State :=
  match s.coming with
  | [] => (none, s)
  | none :: rest => (none, s.setInput rest)
  | some b :: rest => (some b, s.consume rest)

/-- The first byte among answers and what follows it: the time before it arrives is waited out. -/
def nextByte : List (Option Byte) → Option (Byte × List (Option Byte))
  | [] => none
  | none :: rest => nextByte rest
  | some b :: rest => some (b, rest)

/-- `InRead()`: the next byte of the input stream, consumed; `none` if the host never supplies a byte. -/
def inRead (s : State) : Option (Byte × State) :=
  match nextByte s.input with
  | some (b, rest) => some (b, s.consume rest)
  | none =>
    match nextByte s.inputCycle with
    | some (b, rest) => some (b, s.consume rest)
    | none => none

/-- The state with further answers to come from its host (R191). -/
def State.supply (s : State) (more : List (Option Byte)) : State := s.setInput (s.input ++ more)

/-! ## Memory (20_memory.md R32 to R35) -/

/-- `MemWrite(a, 1, v)` (R35): pure storage at every address. -/
def memWrite (a v : Word) (s : State) : State := s.setMem (s.mem.write a v)

/-- `MemRead(a, 1)` (R32 to R34): at `KBSR_ADDR` the input is polled once, the data cell latches a byte that came, the
status cell is rewritten and its new value answered; at every other address `M[a]` is answered and nothing changes. -/
def memRead (a : Word) (s : State) : Word × State :=
  if a = s.cfg.kbsrAddr then
    match inPoll s with
    | (some b, s1) =>
      (s1.cfg.kbsrReady, memWrite s1.cfg.kbsrAddr s1.cfg.kbsrReady (memWrite s1.cfg.kbdrAddr (zext8 b) s1))
    | (none, s1) => (0, memWrite s1.cfg.kbsrAddr 0 s1)
  else (s.mem.read a, s)

/-! ## Taking a fault, and the fetch -/

/-- `raise Fault(cause, value)` (60_exceptions.md R161, R162): the record is written and the run state becomes FAULTED;
nothing else changes. A handler runs with `pc` = `fault_pc` + 1 (R80), so `fault_pc` is `pc` - 1. There is no return
from a fault (R163). -/
def raiseFault (cause : FaultCause) (s : State) : State :=
  (s.setFault ⟨cause, s.pc - 1⟩).setRun .faulted

/-- The fetch of R80: the word at `pc` through `memRead` (R40), then the increment, which wraps (R14). -/
def fetch (s : State) : Word × State :=
  let r := memRead s.pc s
  (r.1, r.2.setPc (add16 r.2.pc 1))

end Sys2Proof.Machine
end

