-- ==== Sys2Proof/Machine/Control.lean ====
section
/-! DEFINITION. Control transfer (42_control.md). `pc` holds the incremented value when a handler starts (R81). -/

namespace Sys2Proof.Machine

/-- BR (R100). -/
def execBr (n z p : Bool) (off : BitVec 9) (s : State) : Host.Outcome State Fault Refusal :=
  .next (if branchTaken n z p s.cond then s.setPc (pcRelative9 s off) else s)

/-- JMP, RET being JMP R7 (R101). -/
def execJmp (baseR : Reg) (s : State) : Host.Outcome State Fault Refusal :=
  .next (s.setPc (s.reg baseR))

/-- JSR (R102): the link is the incremented `pc`. -/
def execJsr (off : BitVec 11) (s : State) : Host.Outcome State Fault Refusal :=
  .next ((s.setReg .r7 s.pc).setPc (pcRelative11 s off))

/-- JSRR (R103): the base register is read after the write of R7. -/
def execJsrr (baseR : Reg) (s : State) : Host.Outcome State Fault Refusal :=
  let linked := s.setReg .r7 s.pc
  .next (linked.setPc (linked.reg baseR))

end Sys2Proof.Machine
end

