-- ==== Sys2Proof/Machine/Loads.lean ====
section
/-! DEFINITION. Loads and load-address (43_loads.md). Every read goes through `memRead` (R40). -/

namespace Sys2Proof.Machine

/-- Read the word at `ea` and write it to `dr` with its flag: the common part of LD, LDI and LDR. -/
def loadInto (dr : Reg) (ea : Word) (s : State) : State :=
  let r := memRead ea s
  r.2.writeFlagged dr r.1

/-- LD (R110). -/
def execLd (dr : Reg) (off : BitVec 9) (s : State) : Host.Outcome State Fault Refusal :=
  .next (loadInto dr (pcRelative9 s off) s)

/-- LDI (R111): the pointer is read first, then the data, each with its own side effect. -/
def execLdi (dr : Reg) (off : BitVec 9) (s : State) : Host.Outcome State Fault Refusal :=
  let pointer := memRead (pcRelative9 s off) s
  .next (loadInto dr pointer.1 pointer.2)

/-- LDR (R112). -/
def execLdr (dr baseR : Reg) (off : BitVec 6) (s : State) : Host.Outcome State Fault Refusal :=
  .next (loadInto dr (baseOffset6 s baseR off) s)

/-- LEA (R113): the address itself, no memory access. -/
def execLea (dr : Reg) (off : BitVec 9) (s : State) : Host.Outcome State Fault Refusal :=
  .next (s.writeFlagged dr (pcRelative9 s off))

end Sys2Proof.Machine
end

