-- ==== Sys2Proof/Machine/Operate.lean ====
section
/-! DEFINITION. The operate instructions (41_operate.md). Sources are read before the destination is written. -/

namespace Sys2Proof.Machine

/-- ADD, register form (R91). -/
def execAddReg (dr sr1 sr2 : Reg) (s : State) : Host.Outcome State Fault Refusal :=
  .next (s.writeFlagged dr (add16 (s.reg sr1) (s.reg sr2)))

/-- ADD, immediate form (R92). -/
def execAddImm (dr sr1 : Reg) (imm5 : BitVec 5) (s : State) : Host.Outcome State Fault Refusal :=
  .next (s.writeFlagged dr (add16 (s.reg sr1) (sext5 imm5)))

/-- AND, register form (R93). -/
def execAndReg (dr sr1 sr2 : Reg) (s : State) : Host.Outcome State Fault Refusal :=
  .next (s.writeFlagged dr (s.reg sr1 &&& s.reg sr2))

/-- AND, immediate form (R94). -/
def execAndImm (dr sr1 : Reg) (imm5 : BitVec 5) (s : State) : Host.Outcome State Fault Refusal :=
  .next (s.writeFlagged dr (s.reg sr1 &&& sext5 imm5))

/-- NOT (R95). -/
def execNot (dr sr : Reg) (s : State) : Host.Outcome State Fault Refusal :=
  .next (s.writeFlagged dr (~~~ s.reg sr))

end Sys2Proof.Machine
end

