-- ==== Sys2Proof/Machine/Reserved.lean ====
section
/-! DEFINITION. The reserved opcodes (46_reserved.md): each takes the fault of 60_exceptions.md R161. -/

namespace Sys2Proof.Machine

/-- RTI (R150): `raise Fault(ReservedOpcode, 0b1000)`. -/
def execRti (s : State) : Host.Outcome State Fault Refusal := .next (raiseFault (.reservedOpcode 0b1000) s)

/-- RES (R151): `raise Fault(ReservedOpcode, 0b1101)`. -/
def execRes (s : State) : Host.Outcome State Fault Refusal := .next (raiseFault (.reservedOpcode 0b1101) s)

end Sys2Proof.Machine
end

