-- ==== Sys2Proof/Machine/Stores.lean ====
section
/-! DEFINITION. Stores (44_stores.md). A store is pure storage at every address (20_memory.md R35). -/

namespace Sys2Proof.Machine

/-- ST (R120). -/
def execSt (sr : Reg) (off : BitVec 9) (s : State) : Host.Outcome State Fault Refusal :=
  .next (memWrite (pcRelative9 s off) (s.reg sr) s)

/-- STI (R121): the pointer is read through `memRead`, then the register is stored where it points. -/
def execSti (sr : Reg) (off : BitVec 9) (s : State) : Host.Outcome State Fault Refusal :=
  let pointer := memRead (pcRelative9 s off) s
  .next (memWrite pointer.1 (pointer.2.reg sr) pointer.2)

/-- STR (R122). -/
def execStr (sr baseR : Reg) (off : BitVec 6) (s : State) : Host.Outcome State Fault Refusal :=
  .next (memWrite (baseOffset6 s baseR off) (s.reg sr) s)

end Sys2Proof.Machine
end

