-- ==== Sys2Proof/Machine/Traps.lean ====
section
/-! DEFINITION. TRAP and its six routines (45_trap.md), performed by the engine inside the instruction (R138): no vector
table, no link, no jump. -/

namespace Sys2Proof.Machine

/-! ## Routines that read a byte -/

/-- GETC from its `InRead` on (R131): with a byte, R0 is written and no flag; if none ever comes, the
routine waits for ever (R139). -/
def readIntoR0 (s : State) : State :=
  match inRead s with
  | some (b, s1) => s1.setReg .r0 (zext8 b)
  | none => s.setRoutine (some .getc)

/-- IN from its `InRead` on (R134): with a byte, the byte is echoed and R0 written; if none ever comes,
the routine waits for ever (R139). -/
def readEchoIntoR0 (s : State) : State :=
  match inRead s with
  | some (b, s1) => (s1.out b).setReg .r0 (zext8 b)
  | none => s.setRoutine (some .in_)

/-- GETC (R131). -/
def execGetc (s : State) : Host.Outcome State Fault Refusal := .next (readIntoR0 s)

/-- OUT (R132). -/
def execOut (s : State) : Host.Outcome State Fault Refusal := .next (s.out (lowByte (s.reg .r0)))

/-- IN (R134): prompt, read, echo, store. -/
def execIn (s : State) : Host.Outcome State Fault Refusal := .next (readEchoIntoR0 (s.outAll s.cfg.inPrompt))

/-! ## Routines that write a string -/

/-- A bound of the words a string with an end has (log 7). A lap of the memory, 65536 reads, polls once; a string that has
not ended after a poll for each of the host's listed answers, one for each of those it gives over and over, and two laps
more, has no end, since from then on every poll and every other read answers as it did before. -/
def readBound (s : State) : Nat := 65536 * (s.input.length + s.inputCycle.length + 2)

/-- The loop of PUTS (R133) from address `a`: the low byte of each word, up to the first zero word. After the
given number of words without one, the routine is left at the address reached. -/
def putsLoop : Nat → Word → State → State
  | 0, a, s => s.setRoutine (some (.puts a))
  | n + 1, a, s =>
    let r := memRead a s
    if r.1 = 0 then r.2 else putsLoop n (add16 a 1) (r.2.out (lowByte r.1))

/-- PUTS (R133), in one step (R6). -/
def execPuts (s : State) : Host.Outcome State Fault Refusal := .next (putsLoop (readBound s) (s.reg .r0) s)

/-- The loop of PUTSP (R135) with the word `w` read from address `a`: the low byte, then the next word decides whether
`w` was the last one, whose high byte is left out if it is zero (D12). After the given number of further reads without
a zero word, the routine is left at the word and address reached. -/
def putspLoop : Nat → Word → Word → State → State
  | 0, w, a, s => if w = 0 then s else s.setRoutine (some (.putsp w a))
  | n + 1, w, a, s =>
    if w = 0 then s
    else
      let r := memRead (add16 a 1) (s.out (lowByte w))
      putspLoop n r.1 (add16 a 1)
        (if r.1 = 0 ∧ highByte w = 0 then r.2 else r.2.out (highByte w))

/-- PUTSP (R135), in one step (R6). -/
def execPutsp (s : State) : Host.Outcome State Fault Refusal :=
  let r := memRead (s.reg .r0) s
  .next (putspLoop (readBound s) r.1 (s.reg .r0) r.2)

/-! ## A routine that runs for ever -/

/-- The step of a routine that never completes goes on (R133, R139, R190): GETC and IN wait for a byte, PUTS and PUTSP
print on; logs 6 and 7. -/
def resume (w : Routine) (s : State) : State :=
  match w with
  | .getc => readIntoR0 (s.setRoutine none)
  | .in_ => readEchoIntoR0 (s.setRoutine none)
  | .puts a => putsLoop (readBound s) a (s.setRoutine none)
  | .putsp w a => putspLoop (readBound s) w a (s.setRoutine none)

/-! ## HALT and the unknown codes -/

/-- HALT (R136): notice, flush, HALTED. -/
def execHalt (s : State) : Host.Outcome State Fault Refusal :=
  .next ((s.outAll s.cfg.haltNotice).outFlush.setRun .halted)

/-- TRAP with an unknown code (R137): the fault of R161 is taken. -/
def execTrap (code : Byte) (s : State) : Host.Outcome State Fault Refusal :=
  .next (raiseFault (.unknownTrap code) s)

end Sys2Proof.Machine
end

