-- ==== Sys2Proof/Machine/Dispatch.lean ====
section
/-! DEFINITION. The dispatch of 40_execution_cycle.md R82: one arm per constructor of Instr, each one call of its
meaning. The state an arm receives is the one after the fetch and the increment of pc (R80, R81). -/

namespace Sys2Proof.Machine

def exec (i : Instr) (s : State) : Host.Outcome State Fault Refusal :=
  match i with
  | .addReg dr sr1 sr2 => Sys2Proof.Machine.execAddReg dr sr1 sr2 s
  | .addImm dr sr1 imm5 => Sys2Proof.Machine.execAddImm dr sr1 imm5 s
  | .andReg dr sr1 sr2 => Sys2Proof.Machine.execAndReg dr sr1 sr2 s
  | .andImm dr sr1 imm5 => Sys2Proof.Machine.execAndImm dr sr1 imm5 s
  | .not dr sr => Sys2Proof.Machine.execNot dr sr s
  | .br n z p off => Sys2Proof.Machine.execBr n z p off s
  | .jmp baseR => Sys2Proof.Machine.execJmp baseR s
  | .jsr off => Sys2Proof.Machine.execJsr off s
  | .jsrr baseR => Sys2Proof.Machine.execJsrr baseR s
  | .ld dr off => Sys2Proof.Machine.execLd dr off s
  | .ldi dr off => Sys2Proof.Machine.execLdi dr off s
  | .ldr dr baseR off => Sys2Proof.Machine.execLdr dr baseR off s
  | .lea dr off => Sys2Proof.Machine.execLea dr off s
  | .st sr off => Sys2Proof.Machine.execSt sr off s
  | .sti sr off => Sys2Proof.Machine.execSti sr off s
  | .str sr baseR off => Sys2Proof.Machine.execStr sr baseR off s
  | .getc => Sys2Proof.Machine.execGetc s
  | .out => Sys2Proof.Machine.execOut s
  | .puts => Sys2Proof.Machine.execPuts s
  | .in_ => Sys2Proof.Machine.execIn s
  | .putsp => Sys2Proof.Machine.execPutsp s
  | .halt => Sys2Proof.Machine.execHalt s
  | .trap code => Sys2Proof.Machine.execTrap code s
  | .rti => Sys2Proof.Machine.execRti s
  | .res => Sys2Proof.Machine.execRes s

end Sys2Proof.Machine
end

