-- ==== Sys2Proof/Machine/Loader.lean ====
section
/-! DEFINITION. The image format, the loader and the launch of a run (70_reset_and_hazards.md R180 to R184). A load error
refuses the launch (60_exceptions.md R168); it is no fault of the core. -/

namespace Sys2Proof.Machine

/-- The words of a byte sequence, big-endian: `b0 b1` is `b0 ++ b1` (R181). A last single byte gives none. -/
def bigEndianWords : List Byte → List Word
  | b0 :: b1 :: rest => (b0 ++ b1 : Word) :: bigEndianWords rest
  | _ => []

/-- Consecutive words stored from an address on (R182), by the pure storage of R35. -/
def storeWords : Word → List Word → Memory → Memory
  | _, [], m => m
  | a, w :: ws, m => storeWords (add16 a 1) ws (m.write a w)

/-- One image loaded (R182, R183). The checks precede the first store (D20); `origin + k` is a sum of integers. -/
def loadImage (image : List Byte) (m : Memory) : Except LoadError Memory :=
  if image.length % 2 = 1 ∧ 2 ≤ image.length then .error .oddLength
  else
    match bigEndianWords image with
    | [] => .error .tooShort
    | origin :: data =>
      if 0xFFFF < origin.toNat + data.length then .error .pastTop else .ok (storeWords origin data m)

/-- The images loaded in the order supplied, the first error ending the load (R184). `none` is a file that cannot be
opened (R183). -/
def loadImages : List (Option (List Byte)) → Memory → Except LoadError Memory
  | [], m => .ok m
  | none :: _, _ => .error .unreadable
  | some image :: rest, m =>
    match loadImage image m with
    | .ok m1 => loadImages rest m1
    | .error e => .error e

/-- A run created in the order of R180: registers and memory cleared, images loaded, `pc` at `PC_START`, RUNNING. -/
def launch (c : Config) (images : List (Option (List Byte))) : Host.Outcome State Fault Refusal :=
  match loadImages images (State.init c).mem with
  | .ok m => .next ((State.init c).setMem m)
  | .error e => .refused (.launchRefused e)

end Sys2Proof.Machine
end

