-- ==== Sys2Proof/Machine/Step.lean ====
section
/-! DEFINITION. One step of the core (40_execution_cycle.md R80), enabled only while RUNNING. -/

namespace Sys2Proof.Machine

/-- One step (R80): fetch, increment, decode, execute. In HALTED and FAULTED the state is frozen (10_state.md R18,
D24; log 8). One instruction is one step (R6): a trap routine completes in the step that began it, or that step
never ends and `step` shows how it goes on, nothing else happening (R139, R133, R190; logs 6 and 7). -/
def step (s : State) : Host.Outcome State Fault Refusal :=
  match s.run with
  | .halted => .next s
  | .faulted => .next s
  | .running =>
    match s.routine with
    | some w => .next (resume w s)
    | none => exec (decode (fetch s).2.cfg (fetch s).1) (fetch s).2

/-- `s` made ready to fetch the word `w` as its next instruction: RUNNING, no routine running on, the word stored at
`pc`. A fetch from `KBSR_ADDR` answers the status word, never a stored one (R33, R40), so `pc` moves past that address;
log 13. -/
def State.withFetchWord (s : State) (nbits w : Nat) : State :=
  let a := if s.pc = s.cfg.kbsrAddr then add16 s.pc 1 else s.pc
  ((memWrite a (BitVec.ofNat 16 (w % 2 ^ nbits)) (s.setPc a)).setRun .running).setRoutine none

end Sys2Proof.Machine
end

