-- ==== Sys2Proof/Safety.lean ====
section
/-! DEFINITION. The terms claims are made in: what two states may differ in, the flag a value sets, the strings in
memory, the invariant of the machine and the states a run reaches. -/

namespace Sys2Proof.Machine

/-! ## What is unchanged -/

/-- Every general register but those listed is unchanged. -/
def RegsKeptBut (ds : List Reg) (s t : State) : Prop := ∀ r, r ∉ ds → t.reg r = s.reg r

/-- Every word of memory reads as before. -/
def MemoryKept (s t : State) : Prop := ∀ a, t.mem.read a = s.mem.read a

/-- Every word of memory but the two keyboard cells reads as before. -/
def MemoryKeptButKeyboard (s t : State) : Prop :=
  ∀ a, a ≠ s.cfg.kbsrAddr → a ≠ s.cfg.kbdrAddr → t.mem.read a = s.mem.read a

/-- Every word of memory but the one at `ea` reads as before. -/
def MemoryKeptBut (ea : Word) (s t : State) : Prop := ∀ a, a ≠ ea → t.mem.read a = s.mem.read a

/-- The run state, the fault record, which routine runs on and the parameters are unchanged. -/
structure ControlKept (s t : State) : Prop where
  run : t.run = s.run
  fault : t.fault = s.fault
  routine : t.routine = s.routine
  cfg : t.cfg = s.cfg

/-- The host's answers to come and the position in the input stream are unchanged. -/
structure InputKept (s t : State) : Prop where
  input : t.input = s.input
  inputCycle : t.inputCycle = s.inputCycle
  consumed : t.consumed = s.consumed

/-- The output stream and its flush marker are unchanged. -/
structure OutputKept (s t : State) : Prop where
  output : t.output = s.output
  flushed : t.flushed = s.flushed

/-- What an instruction that neither reads nor stores memory, and does no input or output, leaves unchanged beside
registers, flags and `pc`. -/
structure SystemKept (s t : State) : Prop where
  memory : MemoryKept s t
  control : ControlKept s t
  input : InputKept s t
  output : OutputKept s t

/-! ## Flags -/

/-- `c` is the one flag of the value `v` (R16): ZERO for 0x0000, POSITIVE for 0x0001 to 0x7FFF, NEGATIVE for 0x8000 to
0xFFFF. -/
def IsFlagOf (v : Word) (c : Cond) : Prop :=
  (v.toNat = 0 → c = .z) ∧ (1 ≤ v.toNat → v.toNat ≤ 0x7FFF → c = .p) ∧ (0x8000 ≤ v.toNat → c = .n)

/-- The destination register of the nine forms of R17 that set the flags, and none for every other row. -/
def flagDest : Instr → Option Reg
  | .addReg dr _ _ => some dr
  | .addImm dr _ _ => some dr
  | .andReg dr _ _ => some dr
  | .andImm dr _ _ => some dr
  | .not dr _ => some dr
  | .br _ _ _ _ => none
  | .jmp _ => none
  | .jsr _ => none
  | .jsrr _ => none
  | .ld dr _ => some dr
  | .ldi dr _ => some dr
  | .ldr dr _ _ => some dr
  | .lea dr _ => some dr
  | .st _ _ => none
  | .sti _ _ => none
  | .str _ _ _ => none
  | .getc => none
  | .out => none
  | .puts => none
  | .in_ => none
  | .putsp => none
  | .halt => none
  | .trap _ => none
  | .rti => none
  | .res => none

/-- The nine forms of R17 that set the flags. -/
def setsFlags (i : Instr) : Bool := (flagDest i).isSome

/-- The rows that store to memory. -/
def isStore : Instr → Bool
  | .addReg _ _ _ => false
  | .addImm _ _ _ => false
  | .andReg _ _ _ => false
  | .andImm _ _ _ => false
  | .not _ _ => false
  | .br _ _ _ _ => false
  | .jmp _ => false
  | .jsr _ => false
  | .jsrr _ => false
  | .ld _ _ => false
  | .ldi _ _ => false
  | .ldr _ _ _ => false
  | .lea _ _ => false
  | .st _ _ => true
  | .sti _ _ => true
  | .str _ _ _ => true
  | .getc => false
  | .out => false
  | .puts => false
  | .in_ => false
  | .putsp => false
  | .halt => false
  | .trap _ => false
  | .rti => false
  | .res => false

/-! ## Strings in memory (45_trap.md R133, R135) -/

/-- The `k` words from address `a` on. -/
def wordsAt (m : Memory) (a : Word) (k : Nat) : List Word :=
  (List.range k).map fun j => m.read (a + BitVec.ofNat 16 j)

/-- A string of `k` words at `a` that does not lie over `KBSR_ADDR`: none of the words is zero, the word after them
is, and no address up to that word is `KBSR_ADDR`. -/
structure StringAt (s : State) (a : Word) (k : Nat) : Prop where
  nonzero : ∀ w ∈ wordsAt s.mem a k, w ≠ 0
  terminated : s.mem.read (a + BitVec.ofNat 16 k) = 0
  plain : ∀ j, j ≤ k → a + BitVec.ofNat 16 j ≠ s.cfg.kbsrAddr

/-- What PUTSP prints for the words before the terminator: low byte, high byte of each, the last word's high byte left
out if it is zero (R135, D12). -/
def packedBytes : List Word → List Byte
  | [] => []
  | [w] => if highByte w = 0 then [lowByte w] else [lowByte w, highByte w]
  | w :: w' :: ws => lowByte w :: highByte w :: packedBytes (w' :: ws)

/-- The loop of PUTS as R133 writes it: from address `a` and state `s` the loop leaves with state `t`. -/
inductive PrintsWords : Word → State → State → Prop where
  /-- The word read is zero: exit the loop. -/
  | stop (a : Word) (s : State) (h : (memRead a s).1 = 0) : PrintsWords a s (memRead a s).2
  /-- Otherwise its low byte is printed and the loop goes on at the next address. -/
  | char (a : Word) (s t : State) (h : (memRead a s).1 ≠ 0)
      (rest : PrintsWords (a + 1) ((memRead a s).2.out (lowByte (memRead a s).1)) t) : PrintsWords a s t

/-- The loop of PUTSP as R135 writes it: with the word `w` read from address `a`, and state `s`, the loop leaves with
state `t`. -/
inductive PrintsPacked : Word → Word → State → State → Prop where
  /-- `w` is zero: leave the loop. -/
  | stop (a : Word) (s : State) : PrintsPacked 0 a s s
  /-- `w` is the last word and its high byte is zero: the low byte alone is printed. -/
  | half (w a : Word) (s : State) (h : w ≠ 0) (hz : (memRead (a + 1) (s.out (lowByte w))).1 = 0)
      (hh : highByte w = 0) : PrintsPacked w a s (memRead (a + 1) (s.out (lowByte w))).2
  /-- Otherwise both bytes are printed and the loop goes on with the word read. -/
  | both (w a : Word) (s t : State) (h : w ≠ 0)
      (hb : ¬((memRead (a + 1) (s.out (lowByte w))).1 = 0 ∧ highByte w = 0))
      (rest : PrintsPacked (memRead (a + 1) (s.out (lowByte w))).1 (a + 1)
        ((memRead (a + 1) (s.out (lowByte w))).2.out (highByte w)) t) : PrintsPacked w a s t

/-! ## The answers of the host (45_trap.md R139) -/

/-- `b` is the next byte that the host supplies, and `rest` are the listed answers after it: it is among the answers
listed or, if those hold no byte, among those given over and over. -/
def NextByte (s : State) (b : Byte) (rest : List (Option Byte)) : Prop :=
  (∃ n, s.input = List.replicate n none ++ some b :: rest) ∨
  ((∀ x ∈ s.input, x = none) ∧ ∃ n, s.inputCycle = List.replicate n none ++ some b :: rest)

/-- The host never supplies a byte. -/
def NoByteEver (s : State) : Prop := (∀ x ∈ s.input, x = none) ∧ ∀ x ∈ s.inputCycle, x = none

/-- The host answers every poll with a byte other than zero, for ever. -/
def ByteAlways (s : State) : Prop :=
  (∀ x ∈ s.input, ∃ b : Byte, x = some b ∧ b ≠ 0) ∧ s.inputCycle ≠ [] ∧
  ∀ x ∈ s.inputCycle, ∃ b : Byte, x = some b ∧ b ≠ 0

/-! ## Images (70_reset_and_hazards.md R181, R182) -/

/-- Byte `n` of an image. -/
def imageByte (image : List Byte) (n : Nat) : Byte := image.getD n 0

/-- The origin `b[0] ++ b[1]` of an image. -/
def imageOrigin (image : List Byte) : Word := imageByte image 0 ++ imageByte image 1

/-- The number `k` of data words of an image. -/
def imageCount (image : List Byte) : Nat := (image.length - 2) / 2

/-- What R182 requires of an image: at least two bytes, an even number, and not `origin + k > 0xFFFF`. -/
def ImageAccepted (image : List Byte) : Prop :=
  2 ≤ image.length ∧ image.length % 2 = 0 ∧ ¬(imageOrigin image).toNat + imageCount image > 0xFFFF

/-! ## The invariant and the reachable states -/

/-- What holds of a state before each step: memory in canonical form; a fault record exactly in FAULTED (R19), with a
reachable cause (R160) and the address before `pc` (R162); a routine runs on only while RUNNING; the flush
marker lies in the output, at its end once HALTED (R136); the parameters meet R5's constraints. -/
structure State.Inv (s : State) : Prop where
  memory : s.mem.wf
  recordIffFaulted : s.fault.isSome = true ↔ s.run = .faulted
  record : ∀ f, s.fault = some f → s.pc = f.faultPc + 1 ∧
    (f.cause = .reservedOpcode 0b1000 ∨ f.cause = .reservedOpcode 0b1101 ∨
      ∃ code, f.cause = .unknownTrap code ∧ code ∉ s.cfg.trapNumbers)
  runsOn : s.routine.isSome = true → s.run = .running
  flush : s.flushed ≤ s.output.length ∧ (s.run = .halted → s.flushed = s.output.length)
  parameters : s.cfg.wf

/-- The states of some run (R180, R191): a launch the loader accepts, then steps. Between two of them, never inside one
(R6), the host may change what it will answer. -/
inductive Reachable : State → Prop where
  | launched (c : Config) (images : List (Option (List Byte))) (s : State) (hc : c.wf)
      (h : launch c images = .next s) : Reachable s
  | answers (s : State) (i c : List (Option Byte)) (h : Reachable s) (hr : s.routine = none) :
      Reachable ((s.setInput i).setInputCycle c)
  | stepped (s t : State) (h : Reachable s) (hstep : step s = .next t) : Reachable t

end Sys2Proof.Machine
end

