-- ==== Sys2Proof/Certificates/Slice0/Obligations.lean ====
section
/-! DEFINITION. The statements for the provers, from the numbered rules of spec/. A statement that cites a rule of an
instruction says which words the instruction is (the rule's "selected by" and encoding) and what it does from every
state; `s` is the state after the fetch and the increment, so `s.pc` is the rule's `npc`. -/

open Sys2Proof Sys2Proof.Machine

/-! ## Encoding -/

/-- Words written out from the pattern strings of R63 (the examples of 41 to 46) decode to the instructions they stand
for, one of each family. -/
def Obligations.SpecWordsDecodeToTheirInstructions : Prop :=
  decode Config.default 0x1042 = .addReg .r0 .r1 .r2 ∧ decode Config.default 0x107F = .addImm .r0 .r1 0b11111 ∧
  decode Config.default 0x5283 = .andReg .r1 .r2 .r3 ∧ decode Config.default 0x947F = .not .r2 .r1 ∧
  decode Config.default 0x0401 = .br false true false 1 ∧ decode Config.default 0xC1C0 = .jmp .r7 ∧
  decode Config.default 0x4801 = .jsr 1 ∧ decode Config.default 0x4080 = .jsrr .r2 ∧
  decode Config.default 0x2208 = .ld .r1 8 ∧ decode Config.default 0x6060 = .ldr .r0 .r1 0b100000 ∧
  decode Config.default 0xB406 = .sti .r2 6 ∧ decode Config.default 0x747F = .str .r2 .r1 0b111111 ∧
  decode Config.default 0xF125 = .halt ∧ decode Config.default 0xF026 = .trap 0x26 ∧
  decode Config.default 0x8FFF = .rti ∧ decode Config.default 0xDABC = .res

/-- R72, R63: decoding the word of a well-formed instruction gives the instruction back, for every instruction, every
operand and every configuration. -/
def Obligations.DecodeOfEncodeIsTheInstruction : Prop :=
  ∀ (c : Config) (i : Instr), c.wf → i.wf c = true → decode c (encode c i) = i

/-- R72: every word decodes to a well-formed instruction, and encoding that instruction gives the word back on every
bit the decoder looks at. -/
def Obligations.EveryWordIsAnInstructionsWord : Prop :=
  ∀ (c : Config) (w : Word), (decode c w).wf c = true ∧
    encode c (decode c w) &&& (decode c w).usedBits = w &&& (decode c w).usedBits

/-- R66: bits marked `-` are not examined; words that agree on the others are one instruction. -/
def Obligations.UnusedBitsMakeNoDifference : Prop :=
  ∀ (c : Config) (w w' : Word), w &&& (decode c w).usedBits = w' &&& (decode c w).usedBits → decode c w' = decode c w

/-- R64: the four sign extensions give the value of the field read as a two's-complement number, and extending again at
the same width changes nothing. -/
def Obligations.SignExtensionKeepsTheSignedValue : Prop :=
  (∀ v : BitVec 5, (sext5 v).toInt = v.toInt ∧ sext5 ((sext5 v).setWidth 5) = sext5 v) ∧
  (∀ v : BitVec 6, (sext6 v).toInt = v.toInt ∧ sext6 ((sext6 v).setWidth 6) = sext6 v) ∧
  (∀ v : BitVec 9, (sext9 v).toInt = v.toInt ∧ sext9 ((sext9 v).setWidth 9) = sext9 v) ∧
  (∀ v : BitVec 11, (sext11 v).toInt = v.toInt ∧ sext11 ((sext11 v).setWidth 11) = sext11 v)

/-- R130: a TRAP word is the routine whose number its low 8 bits are, whatever bits 11 to 8 hold, and the catch-all row
for every other code. -/
def Obligations.TrapCodeSelectsTheRoutine : Prop :=
  ∀ (c : Config) (ir : Word), c.wf → ir.extractLsb' 12 4 = 0b1111 →
    (ir.extractLsb' 0 8 = c.trapGetc → decode c ir = .getc) ∧
    (ir.extractLsb' 0 8 = c.trapOut → decode c ir = .out) ∧
    (ir.extractLsb' 0 8 = c.trapPuts → decode c ir = .puts) ∧
    (ir.extractLsb' 0 8 = c.trapIn → decode c ir = .in_) ∧
    (ir.extractLsb' 0 8 = c.trapPutsp → decode c ir = .putsp) ∧
    (ir.extractLsb' 0 8 = c.trapHalt → decode c ir = .halt) ∧
    (ir.extractLsb' 0 8 ∉ c.trapNumbers → decode c ir = .trap (ir.extractLsb' 0 8))

/-! ## The step -/

/-- R80, R81: while RUNNING and with no routine running on (log 6), a step fetches at `pc` through `MemRead`,
increments `pc` by one modulo 2^16, and is `exec` of the decoded word in that state; away from `KBSR_ADDR` the word is the memory word and
nothing but `pc` has changed. -/
def Obligations.StepIsExecOfTheFetchedInstruction : Prop :=
  ∀ s : State, s.run = .running → s.routine = none →
    (∃ s1, s1 = (memRead s.pc s).2.setPc (s.pc + 1) ∧ step s = exec (decode s.cfg (memRead s.pc s).1) s1) ∧
    (∀ i, s.pc ≠ s.cfg.kbsrAddr → decode s.cfg (s.mem.read s.pc) = i → step s = exec i (s.setPc (s.pc + 1)))

/-- The host's entry: the step after `withFetchWord` runs exactly the word given, and the words elsewhere and the
registers are those of `s`. -/
def Obligations.FetchWordIsWhatTheNextStepRuns : Prop :=
  ∀ (s : State) (w : Nat), s.mem.wf → w < 65536 → ∃ t, step (s.withFetchWord 16 w) =
      exec (decode s.cfg (BitVec.ofNat 16 w)) t ∧ RegsKeptBut [] s t ∧ t.cond = s.cond ∧ InputKept s t ∧
    OutputKept s t ∧ t.run = .running ∧ t.routine = none ∧
    (s.pc ≠ s.cfg.kbsrAddr → t.pc = s.pc + 1 ∧ MemoryKeptBut s.pc s t)

/-- R18: HALTED and FAULTED are terminal: however many steps are taken, nothing changes. That a step there answers the
same state, instead of none, is the model's choice (log 8). -/
def Obligations.HaltedAndFaultedStatesAreFrozen : Prop :=
  ∀ (s : State) (n : Nat), s.run ≠ .running → Sys2Proof.core.run n s = .next s

/-- R83: a step from RUNNING leads to HALTED exactly by HALT, to FAULTED exactly by RTI, RES or an unknown trap code,
and otherwise stays RUNNING. -/
def Obligations.RunStateChangesOnlyByHaltAndFaults : Prop :=
  ∀ s t : State, s.run = .running → s.routine = none → step s = .next t →
    (t.run = .halted ↔ decode s.cfg (memRead s.pc s).1 = .halt) ∧
    (t.run = .faulted ↔ decode s.cfg (memRead s.pc s).1 = .rti ∨ decode s.cfg (memRead s.pc s).1 = .res ∨
      ∃ code, decode s.cfg (memRead s.pc s).1 = .trap code)

/-- R161, R162: when a step leads to FAULTED, the registers, `cond`, the streams are as before, memory has changed only
as the fetch changed it, `pc` is the faulting address plus one, and the record holds that address and the cause with the
value of the word fetched. -/
def Obligations.FaultsArePrecise : Prop :=
  ∀ s t : State, s.run = .running → s.routine = none → step s = .next t → t.run = .faulted →
    RegsKeptBut [] s t ∧ t.cond = s.cond ∧ t.pc = s.pc + 1 ∧ t.mem = (memRead s.pc s).2.mem ∧
    InputKept (memRead s.pc s).2 t ∧ OutputKept s t ∧
    t.routine = none ∧ t.cfg = s.cfg ∧
    ((decode s.cfg (memRead s.pc s).1 = .rti ∧ t.fault = some ⟨.reservedOpcode 8, s.pc⟩) ∨
     (decode s.cfg (memRead s.pc s).1 = .res ∧ t.fault = some ⟨.reservedOpcode 13, s.pc⟩) ∨
     ∃ code, decode s.cfg (memRead s.pc s).1 = .trap code ∧ t.fault = some ⟨.unknownTrap code, s.pc⟩)

/-- R40, for a ready value of 0x8000: a fetch from `KBSR_ADDR` polls; without a byte the step is a branch that is not
taken, with one it faults as RTI. Memory and input are as the one read leaves them, and nothing else changes. -/
def Obligations.FetchAtTheStatusWordPolls : Prop :=
  ∀ s : State, s.run = .running → s.routine = none → s.pc = s.cfg.kbsrAddr → s.cfg.kbsrReady = 0x8000 →
    ∃ t, step s = .next t ∧ t.pc = s.pc + 1 ∧ t.mem = (memRead s.pc s).2.mem ∧ InputKept (memRead s.pc s).2 t ∧
      OutputKept s t ∧ RegsKeptBut [] s t ∧ t.cond = s.cond ∧ t.routine = none ∧ t.cfg = s.cfg ∧
      (s.coming = [] → t.run = .running ∧ t.fault = s.fault ∧ t.input = s.input ∧ t.consumed = s.consumed) ∧
      (∀ rest, s.coming = none :: rest → t.run = .running ∧ t.fault = s.fault ∧ t.input = rest ∧
        t.consumed = s.consumed) ∧
      (∀ b rest, s.coming = some b :: rest → t.run = .faulted ∧ t.fault = some ⟨.reservedOpcode 8, s.pc⟩ ∧
        t.input = rest ∧ t.consumed = s.consumed + 1)

/-! ## Operate instructions -/

/-- R91: ADD, register form: the sum modulo 2^16, the flag of the sum, nothing else. -/
def Obligations.AddRegisterForm : Prop :=
  (∀ (c : Config) (ir : Word), ir.extractLsb' 12 4 = 0b0001 → ir.getLsbD 5 = false → decode c ir =
    .addReg (Reg.ofBits (ir.extractLsb' 9 3)) (Reg.ofBits (ir.extractLsb' 6 3)) (Reg.ofBits (ir.extractLsb' 0 3))) ∧
  ∀ (dr sr1 sr2 : Reg) (s : State), ∃ t, exec (.addReg dr sr1 sr2) s = .next t ∧
    (t.reg dr).toNat = ((s.reg sr1).toNat + (s.reg sr2).toNat) % 65536 ∧ IsFlagOf (t.reg dr) t.cond ∧
    RegsKeptBut [dr] s t ∧ t.pc = s.pc ∧ SystemKept s t

/-- R92: ADD, immediate form: the immediate is a two's-complement number of 5 bits. -/
def Obligations.AddImmediateForm : Prop :=
  (∀ (c : Config) (ir : Word), ir.extractLsb' 12 4 = 0b0001 → ir.getLsbD 5 = true → decode c ir =
    .addImm (Reg.ofBits (ir.extractLsb' 9 3)) (Reg.ofBits (ir.extractLsb' 6 3)) (ir.extractLsb' 0 5)) ∧
  ∀ (dr sr1 : Reg) (imm5 : BitVec 5) (s : State), ∃ t, exec (.addImm dr sr1 imm5) s = .next t ∧
    ((t.reg dr).toNat : Int) = ((s.reg sr1).toNat + imm5.toInt) % 65536 ∧ IsFlagOf (t.reg dr) t.cond ∧
    RegsKeptBut [dr] s t ∧ t.pc = s.pc ∧ SystemKept s t

/-- R93: AND, register form: bit by bit. -/
def Obligations.AndRegisterForm : Prop :=
  (∀ (c : Config) (ir : Word), ir.extractLsb' 12 4 = 0b0101 → ir.getLsbD 5 = false → decode c ir =
    .andReg (Reg.ofBits (ir.extractLsb' 9 3)) (Reg.ofBits (ir.extractLsb' 6 3)) (Reg.ofBits (ir.extractLsb' 0 3))) ∧
  ∀ (dr sr1 sr2 : Reg) (s : State), ∃ t, exec (.andReg dr sr1 sr2) s = .next t ∧
    (∀ k, (t.reg dr).getLsbD k = ((s.reg sr1).getLsbD k && (s.reg sr2).getLsbD k)) ∧ IsFlagOf (t.reg dr) t.cond ∧
    RegsKeptBut [dr] s t ∧ t.pc = s.pc ∧ SystemKept s t

/-- R94: AND, immediate form: bits 4 to 0 are the immediate's, and bits 15 to 5 meet copies of its bit 4. -/
def Obligations.AndImmediateForm : Prop :=
  (∀ (c : Config) (ir : Word), ir.extractLsb' 12 4 = 0b0101 → ir.getLsbD 5 = true → decode c ir =
    .andImm (Reg.ofBits (ir.extractLsb' 9 3)) (Reg.ofBits (ir.extractLsb' 6 3)) (ir.extractLsb' 0 5)) ∧
  ∀ (dr sr1 : Reg) (imm5 : BitVec 5) (s : State), ∃ t, exec (.andImm dr sr1 imm5) s = .next t ∧
    (∀ k, k < 16 → (t.reg dr).getLsbD k = ((s.reg sr1).getLsbD k && imm5.getLsbD (min k 4))) ∧
    IsFlagOf (t.reg dr) t.cond ∧ RegsKeptBut [dr] s t ∧ t.pc = s.pc ∧ SystemKept s t

/-- R95: NOT: 0xFFFF minus the source. -/
def Obligations.NotComplementsTheSource : Prop :=
  (∀ (c : Config) (ir : Word), ir.extractLsb' 12 4 = 0b1001 → decode c ir =
    .not (Reg.ofBits (ir.extractLsb' 9 3)) (Reg.ofBits (ir.extractLsb' 6 3))) ∧
  ∀ (dr sr : Reg) (s : State), ∃ t, exec (.not dr sr) s = .next t ∧
    (t.reg dr).toNat = 0xFFFF - (s.reg sr).toNat ∧ IsFlagOf (t.reg dr) t.cond ∧
    RegsKeptBut [dr] s t ∧ t.pc = s.pc ∧ SystemKept s t

/-! ## Control transfer -/

/-- R100: BR is taken when the one flag that is set has its bit among n, z, p, never when no flag is set; the target is
`npc` plus the signed offset; nothing but `pc` changes. -/
def Obligations.BranchFollowsTheConditionBits : Prop :=
  (∀ (c : Config) (ir : Word), ir.extractLsb' 12 4 = 0b0000 → decode c ir =
    .br (ir.getLsbD 11) (ir.getLsbD 10) (ir.getLsbD 9) (ir.extractLsb' 0 9)) ∧
  ∀ (n z p : Bool) (off : BitVec 9) (s : State), ∃ t, exec (.br n z p off) s = .next t ∧
    ((n = true ∧ s.cond = .n ∨ z = true ∧ s.cond = .z ∨ p = true ∧ s.cond = .p) →
      (t.pc.toNat : Int) = (s.pc.toNat + off.toInt) % 65536) ∧
    (¬(n = true ∧ s.cond = .n ∨ z = true ∧ s.cond = .z ∨ p = true ∧ s.cond = .p) → t.pc = s.pc) ∧
    RegsKeptBut [] s t ∧ t.cond = s.cond ∧ SystemKept s t

/-- R101: JMP goes to the value of the base register and writes no register. -/
def Obligations.JumpGoesToTheRegister : Prop :=
  (∀ (c : Config) (ir : Word), ir.extractLsb' 12 4 = 0b1100 → decode c ir =
    .jmp (Reg.ofBits (ir.extractLsb' 6 3))) ∧
  ∀ (baseR : Reg) (s : State), ∃ t, exec (.jmp baseR) s = .next t ∧ t.pc = s.reg baseR ∧
    RegsKeptBut [] s t ∧ t.cond = s.cond ∧ SystemKept s t

/-- R102: JSR links `npc` in R7 and goes to `npc` plus the signed 11-bit offset; no flag changes. -/
def Obligations.CallLinksAndGoesToTheOffset : Prop :=
  (∀ (c : Config) (ir : Word), ir.extractLsb' 12 4 = 0b0100 → ir.getLsbD 11 = true → decode c ir =
    .jsr (ir.extractLsb' 0 11)) ∧
  ∀ (off : BitVec 11) (s : State), ∃ t, exec (.jsr off) s = .next t ∧ t.reg .r7 = s.pc ∧
    (t.pc.toNat : Int) = (s.pc.toNat + off.toInt) % 65536 ∧
    RegsKeptBut [.r7] s t ∧ t.cond = s.cond ∧ SystemKept s t

/-- R103: JSRR links `npc` in R7 and then reads the base: JSRR R7 goes to `npc`, any other base to its register. -/
def Obligations.CallThroughRegisterReadsAfterTheLink : Prop :=
  (∀ (c : Config) (ir : Word), ir.extractLsb' 12 4 = 0b0100 → ir.getLsbD 11 = false → decode c ir =
    .jsrr (Reg.ofBits (ir.extractLsb' 6 3))) ∧
  ∀ (baseR : Reg) (s : State), ∃ t, exec (.jsrr baseR) s = .next t ∧ t.reg .r7 = s.pc ∧
    (baseR = .r7 → t.pc = s.pc) ∧ (baseR ≠ .r7 → t.pc = s.reg baseR) ∧
    RegsKeptBut [.r7] s t ∧ t.cond = s.cond ∧ SystemKept s t

/-! ## Loads -/

/-- R110: LD reads the word at `npc` plus the signed offset through `MemRead`. Away from `KBSR_ADDR` that is the memory
word and memory and input are unchanged; at `KBSR_ADDR` they are what the one read leaves. -/
def Obligations.LoadPcRelative : Prop :=
  (∀ (c : Config) (ir : Word), ir.extractLsb' 12 4 = 0b0010 → decode c ir =
    .ld (Reg.ofBits (ir.extractLsb' 9 3)) (ir.extractLsb' 0 9)) ∧
  ∀ (dr : Reg) (off : BitVec 9) (s : State) (ea : Word), ea = s.pc + BitVec.ofInt 16 off.toInt →
    ∃ t, exec (.ld dr off) s = .next t ∧ t.reg dr = (memRead ea s).1 ∧ IsFlagOf (t.reg dr) t.cond ∧
      t.mem = (memRead ea s).2.mem ∧ InputKept (memRead ea s).2 t ∧
      (ea ≠ s.cfg.kbsrAddr → t.reg dr = s.mem.read ea ∧ MemoryKept s t ∧ InputKept s t) ∧
      MemoryKeptButKeyboard s t ∧ RegsKeptBut [dr] s t ∧ t.pc = s.pc ∧ ControlKept s t ∧ OutputKept s t

/-- R111: LDI reads the pointer, then the word it points to, each through `MemRead`. -/
def Obligations.LoadIndirect : Prop :=
  (∀ (c : Config) (ir : Word), ir.extractLsb' 12 4 = 0b1010 → decode c ir =
    .ldi (Reg.ofBits (ir.extractLsb' 9 3)) (ir.extractLsb' 0 9)) ∧
  ∀ (dr : Reg) (off : BitVec 9) (s s1 s2 : State) (pa ea v : Word), pa = s.pc + BitVec.ofInt 16 off.toInt →
    memRead pa s = (ea, s1) → memRead ea s1 = (v, s2) →
    ∃ t, exec (.ldi dr off) s = .next t ∧ t.reg dr = v ∧ IsFlagOf v t.cond ∧
      t.mem = s2.mem ∧ InputKept s2 t ∧
      (pa ≠ s.cfg.kbsrAddr → s.mem.read pa ≠ s.cfg.kbsrAddr →
        t.reg dr = s.mem.read (s.mem.read pa) ∧ MemoryKept s t ∧ InputKept s t) ∧
      MemoryKeptButKeyboard s t ∧ RegsKeptBut [dr] s t ∧ t.pc = s.pc ∧ ControlKept s t ∧ OutputKept s t

/-- R112: LDR reads the word at the base register plus the signed 6-bit offset; the base is read before the
destination is written. -/
def Obligations.LoadBaseOffset : Prop :=
  (∀ (c : Config) (ir : Word), ir.extractLsb' 12 4 = 0b0110 → decode c ir =
    .ldr (Reg.ofBits (ir.extractLsb' 9 3)) (Reg.ofBits (ir.extractLsb' 6 3)) (ir.extractLsb' 0 6)) ∧
  ∀ (dr baseR : Reg) (off : BitVec 6) (s : State) (ea : Word), ea = s.reg baseR + BitVec.ofInt 16 off.toInt →
    ∃ t, exec (.ldr dr baseR off) s = .next t ∧ t.reg dr = (memRead ea s).1 ∧ IsFlagOf (t.reg dr) t.cond ∧
      t.mem = (memRead ea s).2.mem ∧ InputKept (memRead ea s).2 t ∧
      (ea ≠ s.cfg.kbsrAddr → t.reg dr = s.mem.read ea ∧ MemoryKept s t ∧ InputKept s t) ∧
      MemoryKeptButKeyboard s t ∧ RegsKeptBut [dr] s t ∧ t.pc = s.pc ∧ ControlKept s t ∧ OutputKept s t

/-- R113: LEA writes the address itself and sets the flag from it; no memory access, no poll. -/
def Obligations.LoadEffectiveAddress : Prop :=
  (∀ (c : Config) (ir : Word), ir.extractLsb' 12 4 = 0b1110 → decode c ir =
    .lea (Reg.ofBits (ir.extractLsb' 9 3)) (ir.extractLsb' 0 9)) ∧
  ∀ (dr : Reg) (off : BitVec 9) (s : State), ∃ t, exec (.lea dr off) s = .next t ∧
    ((t.reg dr).toNat : Int) = (s.pc.toNat + off.toInt) % 65536 ∧ IsFlagOf (t.reg dr) t.cond ∧
    RegsKeptBut [dr] s t ∧ t.pc = s.pc ∧ SystemKept s t

/-! ## Stores -/

/-- R120: ST stores the register at `npc` plus the signed offset, and every other word of memory reads as before. -/
def Obligations.StorePcRelative : Prop :=
  (∀ (c : Config) (ir : Word), ir.extractLsb' 12 4 = 0b0011 → decode c ir =
    .st (Reg.ofBits (ir.extractLsb' 9 3)) (ir.extractLsb' 0 9)) ∧
  ∀ (sr : Reg) (off : BitVec 9) (s : State) (ea : Word), s.mem.wf → ea = s.pc + BitVec.ofInt 16 off.toInt →
    ∃ t, exec (.st sr off) s = .next t ∧ t.mem.read ea = s.reg sr ∧ MemoryKeptBut ea s t ∧
      RegsKeptBut [] s t ∧ t.cond = s.cond ∧ t.pc = s.pc ∧ ControlKept s t ∧ InputKept s t ∧ OutputKept s t

/-- R121: STI reads the pointer through `MemRead` and stores the register where it points. -/
def Obligations.StoreIndirect : Prop :=
  (∀ (c : Config) (ir : Word), ir.extractLsb' 12 4 = 0b1011 → decode c ir =
    .sti (Reg.ofBits (ir.extractLsb' 9 3)) (ir.extractLsb' 0 9)) ∧
  ∀ (sr : Reg) (off : BitVec 9) (s s1 : State) (pa ea : Word), s.mem.wf → pa = s.pc + BitVec.ofInt 16 off.toInt →
    memRead pa s = (ea, s1) →
    ∃ t, exec (.sti sr off) s = .next t ∧ t.mem.read ea = s.reg sr ∧ MemoryKeptBut ea s1 t ∧
      (pa ≠ s.cfg.kbsrAddr → ea = s.mem.read pa ∧ MemoryKeptBut ea s t ∧ InputKept s t) ∧
      InputKept s1 t ∧
      RegsKeptBut [] s t ∧ t.cond = s.cond ∧ t.pc = s.pc ∧ ControlKept s t ∧ OutputKept s t

/-- R122: STR stores the register at the base register plus the signed 6-bit offset. -/
def Obligations.StoreBaseOffset : Prop :=
  (∀ (c : Config) (ir : Word), ir.extractLsb' 12 4 = 0b0111 → decode c ir =
    .str (Reg.ofBits (ir.extractLsb' 9 3)) (Reg.ofBits (ir.extractLsb' 6 3)) (ir.extractLsb' 0 6)) ∧
  ∀ (sr baseR : Reg) (off : BitVec 6) (s : State) (ea : Word), s.mem.wf →
    ea = s.reg baseR + BitVec.ofInt 16 off.toInt →
    ∃ t, exec (.str sr baseR off) s = .next t ∧ t.mem.read ea = s.reg sr ∧ MemoryKeptBut ea s t ∧
      RegsKeptBut [] s t ∧ t.cond = s.cond ∧ t.pc = s.pc ∧ ControlKept s t ∧ InputKept s t ∧ OutputKept s t

/-! ## Memory and the keyboard -/

/-- R32, R34: a read of any address but `KBSR_ADDR`, the data word's included, answers the cell and changes nothing. -/
def Obligations.OrdinaryReadsArePure : Prop :=
  ∀ (a : Word) (s : State), a ≠ s.cfg.kbsrAddr → memRead a s = (s.mem.read a, s)

/-- R33: a read of `KBSR_ADDR` polls once. A byte that came is consumed, latched zero-extended in the data cell, and the
status cell and the answer are the ready value; without a byte the status cell and the answer are zero and the data
cell is unchanged. What the cells held before does not matter, and nothing else changes. -/
def Obligations.StatusReadPollsOnce : Prop :=
  ∀ s : State, s.mem.wf → s.cfg.wf → ∃ v t, memRead s.cfg.kbsrAddr s = (v, t) ∧ t.mem.read s.cfg.kbsrAddr = v ∧
    (∀ b rest, s.coming = some b :: rest → v = s.cfg.kbsrReady ∧ (t.mem.read s.cfg.kbdrAddr).toNat = b.toNat ∧
      t.input = rest ∧ t.consumed = s.consumed + 1) ∧
    (∀ rest, s.coming = none :: rest → v = 0 ∧ t.mem.read s.cfg.kbdrAddr = s.mem.read s.cfg.kbdrAddr ∧
      t.input = rest ∧ t.consumed = s.consumed) ∧
    (s.coming = [] → v = 0 ∧ t.mem.read s.cfg.kbdrAddr = s.mem.read s.cfg.kbdrAddr ∧ InputKept s t) ∧
    t.inputCycle = s.inputCycle ∧
    MemoryKeptButKeyboard s t ∧ RegsKeptBut [] s t ∧ t.pc = s.pc ∧ t.cond = s.cond ∧ ControlKept s t ∧ OutputKept s t

/-- R35: a write stores the word and does nothing else, at every address, the device addresses included. That it keeps
the canonical form is about the model's own form of memory (log 4). -/
def Obligations.WritesArePureStorage : Prop :=
  ∀ (a v : Word) (s : State), s.mem.wf → (memWrite a v s).mem.wf ∧ (memWrite a v s).mem.read a = v ∧
    MemoryKeptBut a s (memWrite a v s) ∧ RegsKeptBut [] s (memWrite a v s) ∧ (memWrite a v s).pc = s.pc ∧
    (memWrite a v s).cond = s.cond ∧ ControlKept s (memWrite a v s) ∧ InputKept s (memWrite a v s) ∧
    OutputKept s (memWrite a v s)

/-- Two memories in canonical form that read alike at every address are the same data. -/
def Obligations.CanonicalMemoriesThatReadAlikeAreEqual : Prop :=
  ∀ m m' : Memory, m.wf → m'.wf → (∀ a, m.read a = m'.read a) → m = m'

/-- R46: a word that ST, STR or STI stores at the address fetched next is the word the next step executes. -/
def Obligations.StoredWordIsFetchedByTheNextStep : Prop :=
  ∀ (i : Instr) (sr : Reg) (s : State), s.mem.wf → s.run = .running → s.routine = none →
    s.pc ≠ s.cfg.kbsrAddr →
    (i = .st sr 0 ∨
      (∃ baseR off, i = .str sr baseR off ∧ s.reg baseR + BitVec.ofInt 16 off.toInt = s.pc) ∨
      (∃ off, i = .sti sr off ∧ s.pc + BitVec.ofInt 16 off.toInt ≠ s.cfg.kbsrAddr ∧
        s.mem.read (s.pc + BitVec.ofInt 16 off.toInt) = s.pc)) →
    ∃ t, exec i s = .next t ∧ step t = exec (decode s.cfg (s.reg sr)) (t.setPc (s.pc + 1))

/-! ## TRAP -/

/-- R131: GETC with a byte to come, after any time of waiting: R0 is the byte zero-extended, the byte is consumed, there
is no echo and no flag changes. It is one step (R6). -/
def Obligations.GetcReadsOneByte : Prop :=
  ∀ (s : State) (b : Byte) (rest : List (Option Byte)), NextByte s b rest → ∃ t, exec .getc s = .next t ∧
      (t.reg .r0).toNat = b.toNat ∧ t.input = rest ∧ t.inputCycle = s.inputCycle ∧ t.consumed = s.consumed + 1 ∧
      RegsKeptBut [.r0] s t ∧ t.cond = s.cond ∧ t.pc = s.pc ∧ MemoryKept s t ∧ ControlKept s t ∧ OutputKept s t

/-- R132: OUT appends the low 8 bits of R0 to the output. -/
def Obligations.OutWritesTheLowByte : Prop :=
  ∀ s : State, ∃ t, exec .out s = .next t ∧
    (∃ b : Byte, t.output = s.output ++ [b] ∧ b.toNat = (s.reg .r0).toNat % 256) ∧ t.flushed = s.flushed ∧
    RegsKeptBut [] s t ∧ t.cond = s.cond ∧ t.pc = s.pc ∧ MemoryKept s t ∧ ControlKept s t ∧ InputKept s t

/-- R133, R6: PUTS is its loop, in one step: it completes, and with exactly that state, if the loop leaves with a state
from R0; where the loop never leaves, PUTS never completes. A PUTS that runs on is the rest of its loop (the running on
is the model's own, log 7). -/
def Obligations.PutsIsItsLoop : Prop :=
  (∀ s t : State, s.routine = none → s.mem.wf → s.cfg.wf →
    ((exec .puts s = .next t ∧ t.routine = none) ↔ PrintsWords (s.reg .r0) s t)) ∧
  ∀ (s t : State) (a : Word), s.run = .running → s.routine = some (.puts a) → s.mem.wf → s.cfg.wf →
    ((step s = .next t ∧ t.routine = none) ↔ PrintsWords a (s.setRoutine none) t)

/-- R133 for a string that does not lie over `KBSR_ADDR`: the low byte of each word up to the first zero word is
printed, across the wrap of the address too, and nothing but the output changes. -/
def Obligations.PutsPrintsTheString : Prop :=
  ∀ (s : State) (k : Nat), StringAt s (s.reg .r0) k → ∃ t, exec .puts s = .next t ∧
    t.output = s.output ++ (wordsAt s.mem (s.reg .r0) k).map lowByte ∧ t.flushed = s.flushed ∧
    RegsKeptBut [] s t ∧ t.cond = s.cond ∧ t.pc = s.pc ∧ MemoryKept s t ∧ ControlKept s t ∧ InputKept s t

/-- R134: IN with a byte to come: prompt, then the echo of the byte, R0 the byte zero-extended; no flag changes. It is
one step (R6). -/
def Obligations.InPromptsReadsAndEchoes : Prop :=
  ∀ (s : State) (b : Byte) (rest : List (Option Byte)), NextByte s b rest → ∃ t, exec .in_ s = .next t ∧
      (t.reg .r0).toNat = b.toNat ∧ t.output = s.output ++ s.cfg.inPrompt ++ [b] ∧ t.flushed = s.flushed ∧
      t.input = rest ∧ t.inputCycle = s.inputCycle ∧ t.consumed = s.consumed + 1 ∧ RegsKeptBut [.r0] s t ∧
      t.cond = s.cond ∧ t.pc = s.pc ∧ MemoryKept s t ∧ ControlKept s t

/-- R135, R6: PUTSP is its loop, in one step: it completes, and with exactly that state, if the loop leaves with a state;
where the loop never leaves, PUTSP never completes. A PUTSP that runs on is the rest of its loop (the running on is the
model's own, log 7). -/
def Obligations.PutspIsItsLoop : Prop :=
  (∀ s t : State, s.routine = none → s.mem.wf → s.cfg.wf →
    ((exec .putsp s = .next t ∧ t.routine = none) ↔
      PrintsPacked (memRead (s.reg .r0) s).1 (s.reg .r0) (memRead (s.reg .r0) s).2 t)) ∧
  ∀ (s t : State) (w a : Word), s.run = .running → s.routine = some (.putsp w a) → s.mem.wf → s.cfg.wf →
    ((step s = .next t ∧ t.routine = none) ↔ PrintsPacked w a (s.setRoutine none) t)

/-- R135 for a string that does not lie over `KBSR_ADDR`: two bytes of each word, the last word's high byte left out if
it is zero, and nothing but the output changes. -/
def Obligations.PutspPrintsThePackedString : Prop :=
  ∀ (s : State) (k : Nat), StringAt s (s.reg .r0) k → ∃ t, exec .putsp s = .next t ∧
    t.output = s.output ++ packedBytes (wordsAt s.mem (s.reg .r0) k) ∧ t.flushed = s.flushed ∧
    RegsKeptBut [] s t ∧ t.cond = s.cond ∧ t.pc = s.pc ∧ MemoryKept s t ∧ ControlKept s t ∧ InputKept s t

/-- R133, R190: PUTS and PUTSP over memory without a zero word, with a host that answers every poll with a byte other
than zero, never complete: however far the step is followed, the machine is RUNNING inside it, and has printed and
consumed more. How `step` shows such a step is the model's own (log 7). -/
def Obligations.EndlessStringsAreNeverCompleted : Prop :=
  ∀ (i : Instr) (s : State), (i = .puts ∨ i = .putsp) → s.run = .running → s.routine = none → s.mem.wf → s.cfg.wf →
    (∀ a, a ≠ s.cfg.kbsrAddr → s.mem.read a ≠ 0) → ByteAlways s → ∃ s1, exec i s = .next s1 ∧
    ∀ n, ∃ t, Sys2Proof.core.run n s1 = .next t ∧ t.run = .running ∧ t.routine ≠ none ∧
      s.output.length + 65536 * (n + 1) ≤ t.output.length ∧ s.consumed + (n + 1) ≤ t.consumed ∧
      RegsKeptBut [] s t ∧ t.pc = s.pc ∧ t.cond = s.cond

/-- R136: HALT prints the notice, flushes all of the output and enters HALTED. -/
def Obligations.HaltPrintsFlushesAndHalts : Prop :=
  ∀ s : State, ∃ t, exec .halt s = .next t ∧ t.run = .halted ∧ t.output = s.output ++ s.cfg.haltNotice ∧
    t.flushed = t.output.length ∧ RegsKeptBut [] s t ∧ t.cond = s.cond ∧ t.pc = s.pc ∧ MemoryKept s t ∧
    InputKept s t ∧ t.fault = s.fault ∧ t.routine = s.routine ∧ t.cfg = s.cfg

/-- R137, R150, R151, R161: an unknown trap code, RTI and RES take the fault: FAULTED, the record with cause, value and
the address before `npc`, and nothing else changes. -/
def Obligations.ReservedOpcodesAndUnknownTrapsFault : Prop :=
  (∀ (c : Config) (ir : Word), (ir.extractLsb' 12 4 = 0b1000 → decode c ir = .rti) ∧
    (ir.extractLsb' 12 4 = 0b1101 → decode c ir = .res) ∧
    (ir.extractLsb' 12 4 = 0b1111 → ir.extractLsb' 0 8 ∉ c.trapNumbers → decode c ir = .trap (ir.extractLsb' 0 8))) ∧
  ∀ (i : Instr) (cause : FaultCause) (s : State) (a : Word), s.pc = a + 1 →
    (i = .rti ∧ cause = .reservedOpcode 8 ∨ i = .res ∧ cause = .reservedOpcode 13 ∨
      ∃ code, i = .trap code ∧ cause = .unknownTrap code) →
    ∃ t, exec i s = .next t ∧ t.run = .faulted ∧ t.fault = some ⟨cause, a⟩ ∧ RegsKeptBut [] s t ∧
      t.cond = s.cond ∧ t.pc = s.pc ∧ MemoryKept s t ∧ InputKept s t ∧ OutputKept s t ∧
      t.routine = s.routine ∧ t.cfg = s.cfg

/-- R138 and the header of 45_trap.md: no trap routine changes `pc`, `cond`, R1 to R7 or a memory word other than the
two keyboard cells, and only GETC and IN change R0. -/
def Obligations.TrapRoutinesKeepRegistersAndPc : Prop :=
  ∀ (i : Instr) (s t : State), (i = .getc ∨ i = .out ∨ i = .puts ∨ i = .in_ ∨ i = .putsp ∨ i = .halt) →
    exec i s = .next t → t.pc = s.pc ∧ t.cond = s.cond ∧ RegsKeptBut [.r0] s t ∧
      (i ≠ .getc → i ≠ .in_ → t.reg .r0 = s.reg .r0) ∧ MemoryKeptButKeyboard s t ∧ t.fault = s.fault

/-- R131, R134, R139: GETC and IN wait for ever while the host never supplies a byte: the machine stays RUNNING with
nothing changed, but for IN's prompt, which has been printed, and following the step further changes nothing. Had the
host more to answer, the step would be the instruction with those answers. How `step` shows the wait is the model's own
(log 6). -/
def Obligations.WaitingForInputEndsWhenAByteComes : Prop :=
  ∀ (i : Instr) (s : State), (i = .getc ∨ i = .in_) → s.run = .running → s.routine = none → NoByteEver s →
    ∃ t, exec i s = .next t ∧ t.run = .running ∧ t.routine ≠ none ∧
      (i = .getc → t.output = s.output) ∧ (i = .in_ → t.output = s.output ++ s.cfg.inPrompt) ∧
      t.flushed = s.flushed ∧ MemoryKept s t ∧ t.fault = s.fault ∧ t.cfg = s.cfg ∧
      InputKept s t ∧ RegsKeptBut [] s t ∧ t.pc = s.pc ∧ t.cond = s.cond ∧
      step t = .next t ∧
      ∀ more : List (Option Byte), step (t.supply more) = exec i (s.supply more)

/-- R6: an instruction is one step. A trap routine that has not completed in the step that began it never does, however
far that step is followed; and while it is followed nothing is fetched: `pc`, `cond`, R1 to R7 and every memory word but
the keyboard cells stay, the machine stays RUNNING, and only GETC and IN change R0. How `step` shows a step that never
ends is the model's own (logs 6 and 7). -/
def Obligations.AnInstructionIsOneStep : Prop :=
  (∀ (i : Instr) (s t : State), s.run = .running → s.routine = none → s.mem.wf → s.cfg.wf → exec i s = .next t →
    t.routine ≠ none → ∀ n, ∃ u, Sys2Proof.core.run n t = .next u ∧ u.routine ≠ none ∧ u.run = .running ∧
      u.pc = s.pc) ∧
  ∀ (s t : State) (w : Routine), s.run = .running → s.routine = some w → step s = .next t →
    t.pc = s.pc ∧ t.cond = s.cond ∧ RegsKeptBut [.r0] s t ∧
      (w ≠ .getc → w ≠ .in_ → t.reg .r0 = s.reg .r0) ∧ MemoryKeptButKeyboard s t ∧ t.run = .running ∧
      t.fault = s.fault ∧ t.flushed = s.flushed ∧ t.cfg = s.cfg ∧ t.inputCycle = s.inputCycle ∧
      (t.input <:+ s.input ∨ t.input <:+ s.inputCycle) ∧ s.output <+: t.output

/-! ## Rules of the whole machine -/

/-- R17: the nine flag-setting forms set the flag of the value in their destination register, the one register they
change; every other instruction leaves `cond` as it is. -/
def Obligations.FlagsFollowFlaggedWritesOnly : Prop :=
  ∀ (i : Instr) (s t : State), exec i s = .next t →
    (flagDest i = none → t.cond = s.cond) ∧
    (∀ dr, flagDest i = some dr → RegsKeptBut [dr] s t ∧ IsFlagOf (t.reg dr) t.cond)

/-- R17: the only reader of `cond` is BR. Every other instruction, run with another value in `cond`, answers the same
state if it sets the flags, and the same state but for that value if it does not. -/
def Obligations.OnlyBranchReadsTheFlags : Prop :=
  ∀ (i : Instr) (s t : State) (c : Cond), i.opcode ≠ .br → exec i s = .next t →
    ∃ t', exec i (s.setCond c) = .next t' ∧ (setsFlags i = true → t' = t) ∧ (setsFlags i = false → t' = t.setCond c)

/-- Memory is changed by ST, STI and STR, and otherwise only in the two keyboard cells, by a read of `KBSR_ADDR`. -/
def Obligations.OnlyStoresChangeOrdinaryMemory : Prop :=
  ∀ (i : Instr) (s t : State), exec i s = .next t → isStore i = false → MemoryKeptButKeyboard s t

/-- R22, R82: bytes are consumed in the order of the stream, output only grows, and no instruction but the TRAP
routines does output. -/
def Obligations.StreamsAreUsedInOrder : Prop :=
  ∀ (i : Instr) (s t : State), exec i s = .next t →
    (t.input <:+ s.input ∨ t.input <:+ s.inputCycle) ∧ t.inputCycle = s.inputCycle ∧
    s.consumed ≤ t.consumed ∧ s.output <+: t.output ∧ (i.opcode ≠ .trap → OutputKept s t)

/-- R86, R36: no instruction stops part-way: every step from every state answers a next state. For a GETC or IN without
a byte ever, and for a string without an end, which never complete (R139, R133), that is a state inside the step (logs 6
and 7); for a HALTED or FAULTED machine, the same state (log 8). -/
def Obligations.EveryStepAnswersANextState : Prop :=
  (∀ (i : Instr) (s : State), ∃ t, exec i s = .next t) ∧ ∀ s : State, ∃ t, step s = .next t

/-- The parameters of R5 never change during a run. -/
def Obligations.StepsKeepTheParameters : Prop :=
  ∀ s t : State, step s = .next t → t.cfg = s.cfg

/-- Every step keeps the invariant of Safety.lean, from every state that meets it. -/
def Obligations.StepsKeepTheInvariant : Prop :=
  ∀ s t : State, s.Inv → step s = .next t → t.Inv

/-- The reset state meets the invariant. -/
def Obligations.ResetMeetsTheInvariant : Prop := State.reset.Inv

/-- Every state of every run (any well-formed configuration, any images, any answers of the host) meets the invariant. -/
def Obligations.ReachableStatesMeetTheInvariant : Prop := ∀ s : State, Reachable s → s.Inv

/-! ## Reset and loading -/

/-- R24, R180: a launch leaves every register zero, `pc` at `PC_START`, no flag, RUNNING, no fault record, nothing
consumed, no output, and memory as the images loaded in order into all-zero memory leave it. -/
def Obligations.LaunchGivesTheResetState : Prop :=
  (∀ a, Memory.read [] a = 0) ∧ State.reset = State.init Config.default ∧
  ∀ (c : Config) (images : List (Option (List Byte))) (s : State), launch c images = .next s →
    loadImages images [] = .ok s.mem ∧ (∀ r, s.reg r = 0) ∧ s.pc = c.pcStart ∧ s.cond = .none ∧ s.run = .running ∧
    s.fault = none ∧ s.routine = none ∧ s.consumed = 0 ∧ s.output = [] ∧ s.flushed = 0 ∧ s.cfg = c

/-- R25: the first instruction is the word at `PC_START`; where no image put a word there it is 0x0000, a branch that
is not taken. -/
def Obligations.FirstInstructionIsAtPcStart : Prop :=
  ∀ (c : Config) (images : List (Option (List Byte))) (s : State), launch c images = .next s →
    c.pcStart ≠ c.kbsrAddr →
    step s = exec (decode c (s.mem.read c.pcStart)) (s.setPc (c.pcStart + 1)) ∧
    (s.mem.read c.pcStart = 0 → step s = .next (s.setPc (c.pcStart + 1)))

/-- R182: an accepted image stores its data words, big-endian, from its origin on, and leaves every other word. That the
canonical form is kept is about the model's own form of memory (log 4). -/
def Obligations.LoaderStoresTheImage : Prop :=
  ∀ (image : List Byte) (m : Memory), m.wf → ImageAccepted image → ∃ m', loadImage image m = .ok m' ∧ m'.wf ∧
    (∀ i, i < imageCount image → m'.read (imageOrigin image + BitVec.ofNat 16 i) =
      imageByte image (2 + 2 * i) ++ imageByte image (3 + 2 * i)) ∧
    (∀ a : Word, (∀ i, i < imageCount image → a ≠ imageOrigin image + BitVec.ofNat 16 i) → m'.read a = m.read a)

/-- R183: exactly the images that are too short, of odd length, or whose `origin + k` exceeds 0xFFFF are rejected. -/
def Obligations.LoaderRejectsExactlyBadImages : Prop :=
  ∀ (image : List Byte) (m : Memory), (∃ e, loadImage image m = .error e) ↔ ¬ImageAccepted image

/-- R184: images are loaded in the order supplied, each into the memory the earlier ones left, and the launch is refused
exactly when some image cannot be loaded. -/
def Obligations.ImagesAreLoadedInOrder : Prop :=
  (∀ (images : List (Option (List Byte))) (image : List Byte) (m m1 : Memory), loadImages images m = .ok m1 →
    loadImages (images ++ [some image]) m = loadImage image m1) ∧
  ∀ (c : Config) (images : List (Option (List Byte))),
    ((∃ e, launch c images = .refused (.launchRefused e)) ↔
      ∃ x ∈ images, ∀ image, x = some image → ¬ImageAccepted image) ∧
    ((∃ s, launch c images = .next s) ↔ ∀ x ∈ images, ∃ image, x = some image ∧ ImageAccepted image)
end

