-- ==== Sys2Proof/Laws/Decode.lean ====
section
/-! SUPPORT. The round trips of register selectors and opcode numbers, and that decoding looks at the opcode first. -/

set_option Elab.async false

namespace Sys2Proof

@[simp] theorem Reg.ofBits_toBits (r : Reg) : Reg.ofBits r.toBits = r := by cases r <;> rfl

@[simp] theorem Reg.toBits_ofBits (b : BitVec 3) : (Reg.ofBits b).toBits = b := by revert b; decide

@[simp] theorem Opcode.ofBits_toBits (o : Opcode) : Opcode.ofBits o.toBits = o := by cases o <;> rfl

@[simp] theorem Opcode.toBits_ofBits (b : BitVec 4) : (Opcode.ofBits b).toBits = b := by revert b; decide

/-- A word whose bits 15 to 12 are an opcode's number has that opcode (R61). -/
theorem opcode_of_bits {w : Word} {o : Opcode} (h : Field.opcode w = o.toBits) :
    Opcode.ofBits (Field.opcode w) = o := by
  rw [h, Opcode.ofBits_toBits]

/-- The opcode bits of an encoded TRAP (R63). -/
theorem encodeTrap_opcode (code : Byte) : Field.opcode (encodeTrap code) = Opcode.trap.toBits := by
  refine BitVec.eq_of_getLsbD_eq fun k hk => ?_
  simp only [Field.opcode, encodeTrap, BitVec.getLsbD_extractLsb', hk, decide_true, Bool.true_and]
  repeat rw [BitVec.getLsbD_append, if_neg (by omega)]
  congr 1
  omega

/-- The code bits of an encoded TRAP (R65). -/
theorem encodeTrap_trapvect8 (code : Byte) : Field.trapvect8 (encodeTrap code) = code := by
  refine BitVec.eq_of_getLsbD_eq fun k hk => ?_
  simp only [Field.trapvect8, encodeTrap, BitVec.getLsbD_extractLsb', hk, decide_true, Bool.true_and]
  rw [BitVec.getLsbD_append, if_pos (by omega)]
  congr 1
  omega

/-- Decoding an encoded TRAP is the dispatch on its code (R130). -/
theorem decode_encodeTrap (c : Config) (code : Byte) : decode c (encodeTrap code) = decodeTrap c code := by
  simp only [decode, opcode_of_bits (encodeTrap_opcode code), encodeTrap_trapvect8]

end Sys2Proof
end

