-- ==== Sys2Proof/Laws/Memory.lean ====
section
/-! SUPPORT. The laws of the canonical memory: a read after a write, that a write keeps the canonical form, and that two
canonical memories which read alike are equal. -/

set_option Elab.async false

namespace Sys2Proof.Machine

/-! ## Unlisted keys -/

theorem Memory.readAt_of_not_listed {m : Memory} {k : Nat} (h : ∀ c ∈ m, c.1 ≠ k) :
    m.readAt k = Memory.unlisted := by
  induction m with
  | nil => rfl
  | cons c m ih =>
    have hc : c.1 ≠ k := h c (by simp)
    simp only [Memory.readAt, if_neg hc]
    exact ih fun d hd => h d (by simp [hd])

theorem Memory.readAt_of_lt_all {m : Memory} {k : Nat} (h : ∀ c ∈ m, k < c.1) :
    m.readAt k = Memory.unlisted :=
  Memory.readAt_of_not_listed fun c hc => (h c hc).ne'

/-! ## Read after write -/

theorem Memory.readAt_writeAt_other (m : Memory) {k j : Nat} (v : Word) (h : j ≠ k) :
    (m.writeAt k v).readAt j = m.readAt j := by
  induction m with
  | nil =>
    simp only [Memory.writeAt]
    split <;> simp [Memory.readAt, Ne.symm h]
  | cons c m ih =>
    simp only [Memory.writeAt]
    split
    · split <;> simp [Memory.readAt, Ne.symm h]
    · split
      · rename_i hck
        have hcj : c.1 ≠ j := hck ▸ Ne.symm h
        split <;> simp [Memory.readAt, Ne.symm h, hcj]
      · simp only [Memory.readAt, ih]

theorem Memory.readAt_writeAt_same {m : Memory} (hm : m.Pairwise (fun c d => c.1 < d.1)) (k : Nat) (v : Word) :
    (m.writeAt k v).readAt k = v := by
  induction m with
  | nil =>
    simp only [Memory.writeAt]
    split <;> simp_all [Memory.readAt]
  | cons c m ih =>
    rw [List.pairwise_cons] at hm
    simp only [Memory.writeAt]
    split
    · rename_i hlt
      split
      · rename_i hv
        rw [hv]
        refine Memory.readAt_of_lt_all fun d hd => ?_
        rcases List.mem_cons.1 hd with rfl | hd
        · exact hlt
        · exact hlt.trans (hm.1 d hd)
      · simp [Memory.readAt]
    · split
      · rename_i hck
        split
        · rename_i hv
          rw [hv]
          exact Memory.readAt_of_lt_all fun d hd => hck ▸ hm.1 d hd
        · simp [Memory.readAt]
      · rename_i hck
        simp only [Memory.readAt, if_neg hck, ih hm.2]

/-! ## The canonical form -/

theorem Memory.mem_writeAt {m : Memory} {k : Nat} {v : Word} {c : WordCell} (h : c ∈ m.writeAt k v) :
    c ∈ m ∨ c = (k, v) ∧ v ≠ Memory.unlisted := by
  induction m with
  | nil =>
    simp only [Memory.writeAt] at h
    split at h
    · simp at h
    · rename_i hv
      exact .inr ⟨by simpa using h, hv⟩
  | cons d m ih =>
    simp only [Memory.writeAt] at h
    split at h
    · split at h
      · exact .inl h
      · rename_i hv
        rcases List.mem_cons.1 h with h | h
        · exact .inr ⟨h, hv⟩
        · exact .inl h
    · split at h
      · split at h
        · exact .inl (List.mem_cons_of_mem _ h)
        · rename_i hv
          rcases List.mem_cons.1 h with h | h
          · exact .inr ⟨h, hv⟩
          · exact .inl (List.mem_cons_of_mem _ h)
      · rcases List.mem_cons.1 h with h | h
        · exact .inl (h ▸ List.mem_cons_self)
        · exact (ih h).imp_left (List.mem_cons_of_mem _)

theorem Memory.writeAt_pairwise {m : Memory} (hm : m.Pairwise (fun c d => c.1 < d.1)) (k : Nat) (v : Word) :
    (m.writeAt k v).Pairwise (fun c d => c.1 < d.1) := by
  induction m with
  | nil =>
    simp only [Memory.writeAt]
    split <;> simp
  | cons c m ih =>
    have hm' := List.pairwise_cons.1 hm
    simp only [Memory.writeAt]
    split
    · rename_i hlt
      split
      · exact hm
      · refine List.pairwise_cons.2 ⟨fun d hd => ?_, hm⟩
        rcases List.mem_cons.1 hd with rfl | hd
        · exact hlt
        · exact hlt.trans (hm'.1 d hd)
    · split
      · rename_i hck
        split
        · exact hm'.2
        · exact List.pairwise_cons.2 ⟨fun d hd => hck ▸ hm'.1 d hd, hm'.2⟩
      · rename_i hnlt hck
        refine List.pairwise_cons.2 ⟨fun d hd => ?_, ih hm'.2⟩
        rcases Memory.mem_writeAt hd with hd | ⟨rfl, _⟩
        · exact hm'.1 d hd
        · exact lt_of_le_of_ne (Nat.le_of_not_lt hnlt) hck

/-- A write keeps the canonical form. -/
theorem Memory.write_wf {m : Memory} (hm : m.wf) (a v : Word) : (m.write a v).wf := by
  refine ⟨Memory.writeAt_pairwise hm.1 _ _, fun c hc => ?_⟩
  rcases Memory.mem_writeAt hc with hc | ⟨rfl, hv⟩
  · exact hm.2 c hc
  · exact ⟨a.isLt, hv⟩

theorem Memory.wf_nil : Memory.wf [] := by decide

/-! ## Words -/

@[simp] theorem Memory.read_nil (a : Word) : Memory.read [] a = 0 := rfl

theorem Memory.read_write_same {m : Memory} (hm : m.wf) (a v : Word) : (m.write a v).read a = v :=
  Memory.readAt_writeAt_same hm.1 _ _

theorem Memory.read_write_other (m : Memory) {a b : Word} (v : Word) (h : b ≠ a) :
    (m.write a v).read b = m.read b :=
  Memory.readAt_writeAt_other m v fun e => h (BitVec.eq_of_toNat_eq e)

end Sys2Proof.Machine
end

