-- ==== Sys2Proof/Laws/State.lean ====
section
/-! SUPPORT. One lemma per field of State per update of Machine/Ops.lean, each true by rfl, so that no proof unfolds a
record update; and the laws of reading a register after an update. -/

set_option Elab.async false

namespace Sys2Proof.Machine

/-! ### setReg -/

@[simp] theorem State.setReg_regs (s : State) (r : Reg) (v : Word) : (s.setReg r v).regs = s.regs.set r v := rfl
@[simp] theorem State.setReg_pc (s : State) (r : Reg) (v : Word) : (s.setReg r v).pc = s.pc := rfl
@[simp] theorem State.setReg_cond (s : State) (r : Reg) (v : Word) : (s.setReg r v).cond = s.cond := rfl
@[simp] theorem State.setReg_mem (s : State) (r : Reg) (v : Word) : (s.setReg r v).mem = s.mem := rfl
@[simp] theorem State.setReg_run (s : State) (r : Reg) (v : Word) : (s.setReg r v).run = s.run := rfl
@[simp] theorem State.setReg_fault (s : State) (r : Reg) (v : Word) : (s.setReg r v).fault = s.fault := rfl
@[simp] theorem State.setReg_routine (s : State) (r : Reg) (v : Word) : (s.setReg r v).routine = s.routine := rfl
@[simp] theorem State.setReg_input (s : State) (r : Reg) (v : Word) : (s.setReg r v).input = s.input := rfl
@[simp] theorem State.setReg_inputCycle (s : State) (r : Reg) (v : Word) : (s.setReg r v).inputCycle = s.inputCycle := rfl
@[simp] theorem State.setReg_consumed (s : State) (r : Reg) (v : Word) : (s.setReg r v).consumed = s.consumed := rfl
@[simp] theorem State.setReg_output (s : State) (r : Reg) (v : Word) : (s.setReg r v).output = s.output := rfl
@[simp] theorem State.setReg_flushed (s : State) (r : Reg) (v : Word) : (s.setReg r v).flushed = s.flushed := rfl
@[simp] theorem State.setReg_cfg (s : State) (r : Reg) (v : Word) : (s.setReg r v).cfg = s.cfg := rfl

/-! ### setPc -/

@[simp] theorem State.setPc_regs (s : State) (a : Word) : (s.setPc a).regs = s.regs := rfl
@[simp] theorem State.setPc_pc (s : State) (a : Word) : (s.setPc a).pc = a := rfl
@[simp] theorem State.setPc_cond (s : State) (a : Word) : (s.setPc a).cond = s.cond := rfl
@[simp] theorem State.setPc_mem (s : State) (a : Word) : (s.setPc a).mem = s.mem := rfl
@[simp] theorem State.setPc_run (s : State) (a : Word) : (s.setPc a).run = s.run := rfl
@[simp] theorem State.setPc_fault (s : State) (a : Word) : (s.setPc a).fault = s.fault := rfl
@[simp] theorem State.setPc_routine (s : State) (a : Word) : (s.setPc a).routine = s.routine := rfl
@[simp] theorem State.setPc_input (s : State) (a : Word) : (s.setPc a).input = s.input := rfl
@[simp] theorem State.setPc_inputCycle (s : State) (a : Word) : (s.setPc a).inputCycle = s.inputCycle := rfl
@[simp] theorem State.setPc_consumed (s : State) (a : Word) : (s.setPc a).consumed = s.consumed := rfl
@[simp] theorem State.setPc_output (s : State) (a : Word) : (s.setPc a).output = s.output := rfl
@[simp] theorem State.setPc_flushed (s : State) (a : Word) : (s.setPc a).flushed = s.flushed := rfl
@[simp] theorem State.setPc_cfg (s : State) (a : Word) : (s.setPc a).cfg = s.cfg := rfl
@[simp] theorem State.setPc_reg (s : State) (a : Word) (q : Reg) : (s.setPc a).reg q = s.reg q := rfl

/-! ### setCond -/

@[simp] theorem State.setCond_regs (s : State) (c : Cond) : (s.setCond c).regs = s.regs := rfl
@[simp] theorem State.setCond_pc (s : State) (c : Cond) : (s.setCond c).pc = s.pc := rfl
@[simp] theorem State.setCond_cond (s : State) (c : Cond) : (s.setCond c).cond = c := rfl
@[simp] theorem State.setCond_mem (s : State) (c : Cond) : (s.setCond c).mem = s.mem := rfl
@[simp] theorem State.setCond_run (s : State) (c : Cond) : (s.setCond c).run = s.run := rfl
@[simp] theorem State.setCond_fault (s : State) (c : Cond) : (s.setCond c).fault = s.fault := rfl
@[simp] theorem State.setCond_routine (s : State) (c : Cond) : (s.setCond c).routine = s.routine := rfl
@[simp] theorem State.setCond_input (s : State) (c : Cond) : (s.setCond c).input = s.input := rfl
@[simp] theorem State.setCond_inputCycle (s : State) (c : Cond) : (s.setCond c).inputCycle = s.inputCycle := rfl
@[simp] theorem State.setCond_consumed (s : State) (c : Cond) : (s.setCond c).consumed = s.consumed := rfl
@[simp] theorem State.setCond_output (s : State) (c : Cond) : (s.setCond c).output = s.output := rfl
@[simp] theorem State.setCond_flushed (s : State) (c : Cond) : (s.setCond c).flushed = s.flushed := rfl
@[simp] theorem State.setCond_cfg (s : State) (c : Cond) : (s.setCond c).cfg = s.cfg := rfl
@[simp] theorem State.setCond_reg (s : State) (c : Cond) (q : Reg) : (s.setCond c).reg q = s.reg q := rfl

/-! ### setMem -/

@[simp] theorem State.setMem_regs (s : State) (m : Memory) : (s.setMem m).regs = s.regs := rfl
@[simp] theorem State.setMem_pc (s : State) (m : Memory) : (s.setMem m).pc = s.pc := rfl
@[simp] theorem State.setMem_cond (s : State) (m : Memory) : (s.setMem m).cond = s.cond := rfl
@[simp] theorem State.setMem_mem (s : State) (m : Memory) : (s.setMem m).mem = m := rfl
@[simp] theorem State.setMem_run (s : State) (m : Memory) : (s.setMem m).run = s.run := rfl
@[simp] theorem State.setMem_fault (s : State) (m : Memory) : (s.setMem m).fault = s.fault := rfl
@[simp] theorem State.setMem_routine (s : State) (m : Memory) : (s.setMem m).routine = s.routine := rfl
@[simp] theorem State.setMem_input (s : State) (m : Memory) : (s.setMem m).input = s.input := rfl
@[simp] theorem State.setMem_inputCycle (s : State) (m : Memory) : (s.setMem m).inputCycle = s.inputCycle := rfl
@[simp] theorem State.setMem_consumed (s : State) (m : Memory) : (s.setMem m).consumed = s.consumed := rfl
@[simp] theorem State.setMem_output (s : State) (m : Memory) : (s.setMem m).output = s.output := rfl
@[simp] theorem State.setMem_flushed (s : State) (m : Memory) : (s.setMem m).flushed = s.flushed := rfl
@[simp] theorem State.setMem_cfg (s : State) (m : Memory) : (s.setMem m).cfg = s.cfg := rfl
@[simp] theorem State.setMem_reg (s : State) (m : Memory) (q : Reg) : (s.setMem m).reg q = s.reg q := rfl

/-! ### setRun -/

@[simp] theorem State.setRun_regs (s : State) (r : RunState) : (s.setRun r).regs = s.regs := rfl
@[simp] theorem State.setRun_pc (s : State) (r : RunState) : (s.setRun r).pc = s.pc := rfl
@[simp] theorem State.setRun_cond (s : State) (r : RunState) : (s.setRun r).cond = s.cond := rfl
@[simp] theorem State.setRun_mem (s : State) (r : RunState) : (s.setRun r).mem = s.mem := rfl
@[simp] theorem State.setRun_run (s : State) (r : RunState) : (s.setRun r).run = r := rfl
@[simp] theorem State.setRun_fault (s : State) (r : RunState) : (s.setRun r).fault = s.fault := rfl
@[simp] theorem State.setRun_routine (s : State) (r : RunState) : (s.setRun r).routine = s.routine := rfl
@[simp] theorem State.setRun_input (s : State) (r : RunState) : (s.setRun r).input = s.input := rfl
@[simp] theorem State.setRun_inputCycle (s : State) (r : RunState) : (s.setRun r).inputCycle = s.inputCycle := rfl
@[simp] theorem State.setRun_consumed (s : State) (r : RunState) : (s.setRun r).consumed = s.consumed := rfl
@[simp] theorem State.setRun_output (s : State) (r : RunState) : (s.setRun r).output = s.output := rfl
@[simp] theorem State.setRun_flushed (s : State) (r : RunState) : (s.setRun r).flushed = s.flushed := rfl
@[simp] theorem State.setRun_cfg (s : State) (r : RunState) : (s.setRun r).cfg = s.cfg := rfl
@[simp] theorem State.setRun_reg (s : State) (r : RunState) (q : Reg) : (s.setRun r).reg q = s.reg q := rfl

/-! ### setFault -/

@[simp] theorem State.setFault_regs (s : State) (f : FaultRecord) : (s.setFault f).regs = s.regs := rfl
@[simp] theorem State.setFault_pc (s : State) (f : FaultRecord) : (s.setFault f).pc = s.pc := rfl
@[simp] theorem State.setFault_cond (s : State) (f : FaultRecord) : (s.setFault f).cond = s.cond := rfl
@[simp] theorem State.setFault_mem (s : State) (f : FaultRecord) : (s.setFault f).mem = s.mem := rfl
@[simp] theorem State.setFault_run (s : State) (f : FaultRecord) : (s.setFault f).run = s.run := rfl
@[simp] theorem State.setFault_fault (s : State) (f : FaultRecord) : (s.setFault f).fault = some f := rfl
@[simp] theorem State.setFault_routine (s : State) (f : FaultRecord) : (s.setFault f).routine = s.routine := rfl
@[simp] theorem State.setFault_input (s : State) (f : FaultRecord) : (s.setFault f).input = s.input := rfl
@[simp] theorem State.setFault_inputCycle (s : State) (f : FaultRecord) : (s.setFault f).inputCycle = s.inputCycle := rfl
@[simp] theorem State.setFault_consumed (s : State) (f : FaultRecord) : (s.setFault f).consumed = s.consumed := rfl
@[simp] theorem State.setFault_output (s : State) (f : FaultRecord) : (s.setFault f).output = s.output := rfl
@[simp] theorem State.setFault_flushed (s : State) (f : FaultRecord) : (s.setFault f).flushed = s.flushed := rfl
@[simp] theorem State.setFault_cfg (s : State) (f : FaultRecord) : (s.setFault f).cfg = s.cfg := rfl
@[simp] theorem State.setFault_reg (s : State) (f : FaultRecord) (q : Reg) : (s.setFault f).reg q = s.reg q := rfl

/-! ### setRoutine -/

@[simp] theorem State.setRoutine_regs (s : State) (w : Option Routine) : (s.setRoutine w).regs = s.regs := rfl
@[simp] theorem State.setRoutine_pc (s : State) (w : Option Routine) : (s.setRoutine w).pc = s.pc := rfl
@[simp] theorem State.setRoutine_cond (s : State) (w : Option Routine) : (s.setRoutine w).cond = s.cond := rfl
@[simp] theorem State.setRoutine_mem (s : State) (w : Option Routine) : (s.setRoutine w).mem = s.mem := rfl
@[simp] theorem State.setRoutine_run (s : State) (w : Option Routine) : (s.setRoutine w).run = s.run := rfl
@[simp] theorem State.setRoutine_fault (s : State) (w : Option Routine) : (s.setRoutine w).fault = s.fault := rfl
@[simp] theorem State.setRoutine_routine (s : State) (w : Option Routine) : (s.setRoutine w).routine = w := rfl
@[simp] theorem State.setRoutine_input (s : State) (w : Option Routine) : (s.setRoutine w).input = s.input := rfl
@[simp] theorem State.setRoutine_inputCycle (s : State) (w : Option Routine) : (s.setRoutine w).inputCycle = s.inputCycle := rfl
@[simp] theorem State.setRoutine_consumed (s : State) (w : Option Routine) : (s.setRoutine w).consumed = s.consumed := rfl
@[simp] theorem State.setRoutine_output (s : State) (w : Option Routine) : (s.setRoutine w).output = s.output := rfl
@[simp] theorem State.setRoutine_flushed (s : State) (w : Option Routine) : (s.setRoutine w).flushed = s.flushed := rfl
@[simp] theorem State.setRoutine_cfg (s : State) (w : Option Routine) : (s.setRoutine w).cfg = s.cfg := rfl
@[simp] theorem State.setRoutine_reg (s : State) (w : Option Routine) (q : Reg) : (s.setRoutine w).reg q = s.reg q := rfl

/-! ### setInput -/

@[simp] theorem State.setInput_regs (s : State) (i : List (Option Byte)) : (s.setInput i).regs = s.regs := rfl
@[simp] theorem State.setInput_pc (s : State) (i : List (Option Byte)) : (s.setInput i).pc = s.pc := rfl
@[simp] theorem State.setInput_cond (s : State) (i : List (Option Byte)) : (s.setInput i).cond = s.cond := rfl
@[simp] theorem State.setInput_mem (s : State) (i : List (Option Byte)) : (s.setInput i).mem = s.mem := rfl
@[simp] theorem State.setInput_run (s : State) (i : List (Option Byte)) : (s.setInput i).run = s.run := rfl
@[simp] theorem State.setInput_fault (s : State) (i : List (Option Byte)) : (s.setInput i).fault = s.fault := rfl
@[simp] theorem State.setInput_routine (s : State) (i : List (Option Byte)) : (s.setInput i).routine = s.routine := rfl
@[simp] theorem State.setInput_input (s : State) (i : List (Option Byte)) : (s.setInput i).input = i := rfl
@[simp] theorem State.setInput_inputCycle (s : State) (i : List (Option Byte)) : (s.setInput i).inputCycle = s.inputCycle := rfl
@[simp] theorem State.setInput_consumed (s : State) (i : List (Option Byte)) : (s.setInput i).consumed = s.consumed := rfl
@[simp] theorem State.setInput_output (s : State) (i : List (Option Byte)) : (s.setInput i).output = s.output := rfl
@[simp] theorem State.setInput_flushed (s : State) (i : List (Option Byte)) : (s.setInput i).flushed = s.flushed := rfl
@[simp] theorem State.setInput_cfg (s : State) (i : List (Option Byte)) : (s.setInput i).cfg = s.cfg := rfl
@[simp] theorem State.setInput_reg (s : State) (i : List (Option Byte)) (q : Reg) : (s.setInput i).reg q = s.reg q := rfl

/-! ### setInputCycle -/

@[simp] theorem State.setInputCycle_regs (s : State) (c : List (Option Byte)) : (s.setInputCycle c).regs = s.regs := rfl
@[simp] theorem State.setInputCycle_pc (s : State) (c : List (Option Byte)) : (s.setInputCycle c).pc = s.pc := rfl
@[simp] theorem State.setInputCycle_cond (s : State) (c : List (Option Byte)) : (s.setInputCycle c).cond = s.cond := rfl
@[simp] theorem State.setInputCycle_mem (s : State) (c : List (Option Byte)) : (s.setInputCycle c).mem = s.mem := rfl
@[simp] theorem State.setInputCycle_run (s : State) (c : List (Option Byte)) : (s.setInputCycle c).run = s.run := rfl
@[simp] theorem State.setInputCycle_fault (s : State) (c : List (Option Byte)) : (s.setInputCycle c).fault = s.fault := rfl
@[simp] theorem State.setInputCycle_routine (s : State) (c : List (Option Byte)) : (s.setInputCycle c).routine = s.routine := rfl
@[simp] theorem State.setInputCycle_input (s : State) (c : List (Option Byte)) : (s.setInputCycle c).input = s.input := rfl
@[simp] theorem State.setInputCycle_inputCycle (s : State) (c : List (Option Byte)) : (s.setInputCycle c).inputCycle = c := rfl
@[simp] theorem State.setInputCycle_consumed (s : State) (c : List (Option Byte)) : (s.setInputCycle c).consumed = s.consumed := rfl
@[simp] theorem State.setInputCycle_output (s : State) (c : List (Option Byte)) : (s.setInputCycle c).output = s.output := rfl
@[simp] theorem State.setInputCycle_flushed (s : State) (c : List (Option Byte)) : (s.setInputCycle c).flushed = s.flushed := rfl
@[simp] theorem State.setInputCycle_cfg (s : State) (c : List (Option Byte)) : (s.setInputCycle c).cfg = s.cfg := rfl
@[simp] theorem State.setInputCycle_reg (s : State) (c : List (Option Byte)) (q : Reg) : (s.setInputCycle c).reg q = s.reg q := rfl

/-! ### consume -/

@[simp] theorem State.consume_regs (s : State) (i : List (Option Byte)) : (s.consume i).regs = s.regs := rfl
@[simp] theorem State.consume_pc (s : State) (i : List (Option Byte)) : (s.consume i).pc = s.pc := rfl
@[simp] theorem State.consume_cond (s : State) (i : List (Option Byte)) : (s.consume i).cond = s.cond := rfl
@[simp] theorem State.consume_mem (s : State) (i : List (Option Byte)) : (s.consume i).mem = s.mem := rfl
@[simp] theorem State.consume_run (s : State) (i : List (Option Byte)) : (s.consume i).run = s.run := rfl
@[simp] theorem State.consume_fault (s : State) (i : List (Option Byte)) : (s.consume i).fault = s.fault := rfl
@[simp] theorem State.consume_routine (s : State) (i : List (Option Byte)) : (s.consume i).routine = s.routine := rfl
@[simp] theorem State.consume_input (s : State) (i : List (Option Byte)) : (s.consume i).input = i := rfl
@[simp] theorem State.consume_inputCycle (s : State) (i : List (Option Byte)) : (s.consume i).inputCycle = s.inputCycle := rfl
@[simp] theorem State.consume_consumed (s : State) (i : List (Option Byte)) : (s.consume i).consumed = s.consumed + 1 := rfl
@[simp] theorem State.consume_output (s : State) (i : List (Option Byte)) : (s.consume i).output = s.output := rfl
@[simp] theorem State.consume_flushed (s : State) (i : List (Option Byte)) : (s.consume i).flushed = s.flushed := rfl
@[simp] theorem State.consume_cfg (s : State) (i : List (Option Byte)) : (s.consume i).cfg = s.cfg := rfl
@[simp] theorem State.consume_reg (s : State) (i : List (Option Byte)) (q : Reg) : (s.consume i).reg q = s.reg q := rfl

/-! ### writeFlagged -/

@[simp] theorem State.writeFlagged_regs (s : State) (r : Reg) (v : Word) : (s.writeFlagged r v).regs = s.regs.set r v := rfl
@[simp] theorem State.writeFlagged_pc (s : State) (r : Reg) (v : Word) : (s.writeFlagged r v).pc = s.pc := rfl
@[simp] theorem State.writeFlagged_cond (s : State) (r : Reg) (v : Word) : (s.writeFlagged r v).cond = Cond.ofWord v := rfl
@[simp] theorem State.writeFlagged_mem (s : State) (r : Reg) (v : Word) : (s.writeFlagged r v).mem = s.mem := rfl
@[simp] theorem State.writeFlagged_run (s : State) (r : Reg) (v : Word) : (s.writeFlagged r v).run = s.run := rfl
@[simp] theorem State.writeFlagged_fault (s : State) (r : Reg) (v : Word) : (s.writeFlagged r v).fault = s.fault := rfl
@[simp] theorem State.writeFlagged_routine (s : State) (r : Reg) (v : Word) : (s.writeFlagged r v).routine = s.routine := rfl
@[simp] theorem State.writeFlagged_input (s : State) (r : Reg) (v : Word) : (s.writeFlagged r v).input = s.input := rfl
@[simp] theorem State.writeFlagged_inputCycle (s : State) (r : Reg) (v : Word) : (s.writeFlagged r v).inputCycle = s.inputCycle := rfl
@[simp] theorem State.writeFlagged_consumed (s : State) (r : Reg) (v : Word) : (s.writeFlagged r v).consumed = s.consumed := rfl
@[simp] theorem State.writeFlagged_output (s : State) (r : Reg) (v : Word) : (s.writeFlagged r v).output = s.output := rfl
@[simp] theorem State.writeFlagged_flushed (s : State) (r : Reg) (v : Word) : (s.writeFlagged r v).flushed = s.flushed := rfl
@[simp] theorem State.writeFlagged_cfg (s : State) (r : Reg) (v : Word) : (s.writeFlagged r v).cfg = s.cfg := rfl

/-! ### out -/

@[simp] theorem State.out_regs (s : State) (b : Byte) : (s.out b).regs = s.regs := rfl
@[simp] theorem State.out_pc (s : State) (b : Byte) : (s.out b).pc = s.pc := rfl
@[simp] theorem State.out_cond (s : State) (b : Byte) : (s.out b).cond = s.cond := rfl
@[simp] theorem State.out_mem (s : State) (b : Byte) : (s.out b).mem = s.mem := rfl
@[simp] theorem State.out_run (s : State) (b : Byte) : (s.out b).run = s.run := rfl
@[simp] theorem State.out_fault (s : State) (b : Byte) : (s.out b).fault = s.fault := rfl
@[simp] theorem State.out_routine (s : State) (b : Byte) : (s.out b).routine = s.routine := rfl
@[simp] theorem State.out_input (s : State) (b : Byte) : (s.out b).input = s.input := rfl
@[simp] theorem State.out_inputCycle (s : State) (b : Byte) : (s.out b).inputCycle = s.inputCycle := rfl
@[simp] theorem State.out_consumed (s : State) (b : Byte) : (s.out b).consumed = s.consumed := rfl
@[simp] theorem State.out_output (s : State) (b : Byte) : (s.out b).output = s.output ++ [b] := rfl
@[simp] theorem State.out_flushed (s : State) (b : Byte) : (s.out b).flushed = s.flushed := rfl
@[simp] theorem State.out_cfg (s : State) (b : Byte) : (s.out b).cfg = s.cfg := rfl
@[simp] theorem State.out_reg (s : State) (b : Byte) (q : Reg) : (s.out b).reg q = s.reg q := rfl

/-! ### outAll -/

@[simp] theorem State.outAll_regs (s : State) (bs : List Byte) : (s.outAll bs).regs = s.regs := rfl
@[simp] theorem State.outAll_pc (s : State) (bs : List Byte) : (s.outAll bs).pc = s.pc := rfl
@[simp] theorem State.outAll_cond (s : State) (bs : List Byte) : (s.outAll bs).cond = s.cond := rfl
@[simp] theorem State.outAll_mem (s : State) (bs : List Byte) : (s.outAll bs).mem = s.mem := rfl
@[simp] theorem State.outAll_run (s : State) (bs : List Byte) : (s.outAll bs).run = s.run := rfl
@[simp] theorem State.outAll_fault (s : State) (bs : List Byte) : (s.outAll bs).fault = s.fault := rfl
@[simp] theorem State.outAll_routine (s : State) (bs : List Byte) : (s.outAll bs).routine = s.routine := rfl
@[simp] theorem State.outAll_input (s : State) (bs : List Byte) : (s.outAll bs).input = s.input := rfl
@[simp] theorem State.outAll_inputCycle (s : State) (bs : List Byte) : (s.outAll bs).inputCycle = s.inputCycle := rfl
@[simp] theorem State.outAll_consumed (s : State) (bs : List Byte) : (s.outAll bs).consumed = s.consumed := rfl
@[simp] theorem State.outAll_output (s : State) (bs : List Byte) : (s.outAll bs).output = s.output ++ bs := rfl
@[simp] theorem State.outAll_flushed (s : State) (bs : List Byte) : (s.outAll bs).flushed = s.flushed := rfl
@[simp] theorem State.outAll_cfg (s : State) (bs : List Byte) : (s.outAll bs).cfg = s.cfg := rfl
@[simp] theorem State.outAll_reg (s : State) (bs : List Byte) (q : Reg) : (s.outAll bs).reg q = s.reg q := rfl

/-! ### outFlush -/

@[simp] theorem State.outFlush_regs (s : State) : (s.outFlush).regs = s.regs := rfl
@[simp] theorem State.outFlush_pc (s : State) : (s.outFlush).pc = s.pc := rfl
@[simp] theorem State.outFlush_cond (s : State) : (s.outFlush).cond = s.cond := rfl
@[simp] theorem State.outFlush_mem (s : State) : (s.outFlush).mem = s.mem := rfl
@[simp] theorem State.outFlush_run (s : State) : (s.outFlush).run = s.run := rfl
@[simp] theorem State.outFlush_fault (s : State) : (s.outFlush).fault = s.fault := rfl
@[simp] theorem State.outFlush_routine (s : State) : (s.outFlush).routine = s.routine := rfl
@[simp] theorem State.outFlush_input (s : State) : (s.outFlush).input = s.input := rfl
@[simp] theorem State.outFlush_inputCycle (s : State) : (s.outFlush).inputCycle = s.inputCycle := rfl
@[simp] theorem State.outFlush_consumed (s : State) : (s.outFlush).consumed = s.consumed := rfl
@[simp] theorem State.outFlush_output (s : State) : (s.outFlush).output = s.output := rfl
@[simp] theorem State.outFlush_flushed (s : State) : (s.outFlush).flushed = s.output.length := rfl
@[simp] theorem State.outFlush_cfg (s : State) : (s.outFlush).cfg = s.cfg := rfl
@[simp] theorem State.outFlush_reg (s : State) (q : Reg) : (s.outFlush).reg q = s.reg q := rfl

/-! ### Registers -/

theorem RegFile.get_set_same (f : RegFile) (r : Reg) (v : Word) : (f.set r v).get r = v := by
  cases r <;> rfl

theorem RegFile.get_set_other (f : RegFile) {r q : Reg} (v : Word) (h : q ≠ r) : (f.set r v).get q = f.get q := by
  cases r <;> cases q <;> first | rfl | exact absurd rfl h

@[simp] theorem State.setReg_reg_same (s : State) (r : Reg) (v : Word) : (s.setReg r v).reg r = v :=
  RegFile.get_set_same s.regs r v

theorem State.setReg_reg_other (s : State) {r q : Reg} (v : Word) (h : q ≠ r) :
    (s.setReg r v).reg q = s.reg q :=
  RegFile.get_set_other s.regs v h

@[simp] theorem State.writeFlagged_reg_same (s : State) (r : Reg) (v : Word) : (s.writeFlagged r v).reg r = v :=
  RegFile.get_set_same s.regs r v

theorem State.writeFlagged_reg_other (s : State) {r q : Reg} (v : Word) (h : q ≠ r) :
    (s.writeFlagged r v).reg q = s.reg q :=
  RegFile.get_set_other s.regs v h

/-! ### Supplying input -/

@[simp] theorem State.supply_input (s : State) (more : List (Option Byte)) :
    (s.supply more).input = s.input ++ more := rfl

@[simp] theorem State.supply_eq_setInput (s : State) (more : List (Option Byte)) :
    s.supply more = s.setInput (s.input ++ more) := rfl

end Sys2Proof.Machine
end

