-- ==== Sys2Proof/Laws/Ops.lean ====
section
/-! SUPPORT. One lemma for each shared operation that says everything it can do, and the frame lemmas that follow. -/

set_option Elab.async false

namespace Sys2Proof.Machine

/-! ## InPoll, InRead -/

theorem State.coming_of_input_cons {s : State} {x : Option Byte} {rest : List (Option Byte)} (h : s.input = x :: rest) :
    s.coming = x :: rest := by
  simp [State.coming, h]

theorem State.coming_of_input_nil {s : State} (h : s.input = []) : s.coming = s.inputCycle := by
  simp [State.coming, h]

theorem State.coming_eq_nil {s : State} : s.coming = [] ↔ s.input = [] ∧ s.inputCycle = [] := by
  unfold State.coming
  split <;> simp_all

/-- What follows the next answer is left of the list, or of the answers given over and over. -/
theorem State.coming_suffix {s : State} {x : Option Byte} {rest : List (Option Byte)} (h : s.coming = x :: rest) :
    rest <:+ s.input ∨ rest <:+ s.inputCycle := by
  unfold State.coming at h
  split at h
  · rw [h]; exact .inr (List.suffix_cons _ _)
  · rename_i hi; rw [hi, h]; exact .inl (List.suffix_cons _ _)

/-- `InPoll` in three cases: no answer to come, the answer "no byte", a byte. -/
theorem inPoll_cases (s : State) :
    (s.coming = [] ∧ inPoll s = (none, s)) ∨
    (∃ rest, s.coming = none :: rest ∧ inPoll s = (none, s.setInput rest)) ∨
    (∃ b rest, s.coming = some b :: rest ∧ inPoll s = (some b, s.consume rest)) := by
  unfold inPoll
  split
  · rename_i h; exact .inl ⟨h, rfl⟩
  · rename_i rest h; exact .inr (.inl ⟨rest, h, rfl⟩)
  · rename_i b rest h; exact .inr (.inr ⟨b, rest, h, rfl⟩)

/-- What `nextByte` skips are answers without a byte. -/
theorem nextByte_eq_some {i rest : List (Option Byte)} {b : Byte} :
    nextByte i = some (b, rest) ↔ ∃ n, i = List.replicate n none ++ some b :: rest := by
  induction i with
  | nil => simp [nextByte]
  | cons x i ih =>
    cases x with
    | none =>
      simp only [nextByte, ih]
      constructor
      · rintro ⟨n, rfl⟩
        exact ⟨n + 1, rfl⟩
      · rintro ⟨n, h⟩
        cases n with
        | zero => simp at h
        | succ n => exact ⟨n, by simpa [List.replicate_succ] using h⟩
    | some c =>
      simp only [nextByte, Option.some.injEq, Prod.mk.injEq]
      constructor
      · rintro ⟨rfl, rfl⟩
        exact ⟨0, rfl⟩
      · rintro ⟨n, h⟩
        cases n with
        | zero => simpa using h
        | succ n => simp [List.replicate_succ] at h

theorem nextByte_eq_none {i : List (Option Byte)} : nextByte i = none ↔ ∀ x ∈ i, x = none := by
  induction i with
  | nil => simp [nextByte]
  | cons x i ih => cases x <;> simp [nextByte, ih]

/-- `InRead` in three cases: no byte ever, a byte of the list, a byte of the answers given over and over. -/
theorem inRead_cases (s : State) :
    ((∀ x ∈ s.input, x = none) ∧ (∀ x ∈ s.inputCycle, x = none) ∧ inRead s = none) ∨
    (∃ n b rest, s.input = List.replicate n none ++ some b :: rest ∧ inRead s = some (b, s.consume rest)) ∨
    (∃ n b rest, (∀ x ∈ s.input, x = none) ∧ s.inputCycle = List.replicate n none ++ some b :: rest ∧
      inRead s = some (b, s.consume rest)) := by
  unfold inRead
  split
  · rename_i b rest h
    obtain ⟨n, hn⟩ := nextByte_eq_some.1 h
    exact .inr (.inl ⟨n, b, rest, hn, rfl⟩)
  · rename_i h
    split
    · rename_i b rest h'
      obtain ⟨n, hn⟩ := nextByte_eq_some.1 h'
      exact .inr (.inr ⟨n, b, rest, nextByte_eq_none.1 h, hn, rfl⟩)
    · rename_i h'
      exact .inl ⟨nextByte_eq_none.1 h, nextByte_eq_none.1 h', rfl⟩

/-! ## MemWrite -/

@[simp] theorem memWrite_mem (a v : Word) (s : State) : (memWrite a v s).mem = s.mem.write a v := rfl
@[simp] theorem memWrite_regs (a v : Word) (s : State) : (memWrite a v s).regs = s.regs := rfl
@[simp] theorem memWrite_reg (a v : Word) (s : State) (r : Reg) : (memWrite a v s).reg r = s.reg r := rfl
@[simp] theorem memWrite_pc (a v : Word) (s : State) : (memWrite a v s).pc = s.pc := rfl
@[simp] theorem memWrite_cond (a v : Word) (s : State) : (memWrite a v s).cond = s.cond := rfl
@[simp] theorem memWrite_run (a v : Word) (s : State) : (memWrite a v s).run = s.run := rfl
@[simp] theorem memWrite_fault (a v : Word) (s : State) : (memWrite a v s).fault = s.fault := rfl
@[simp] theorem memWrite_routine (a v : Word) (s : State) : (memWrite a v s).routine = s.routine := rfl
@[simp] theorem memWrite_input (a v : Word) (s : State) : (memWrite a v s).input = s.input := rfl
@[simp] theorem memWrite_inputCycle (a v : Word) (s : State) : (memWrite a v s).inputCycle = s.inputCycle := rfl
@[simp] theorem memWrite_consumed (a v : Word) (s : State) : (memWrite a v s).consumed = s.consumed := rfl
@[simp] theorem memWrite_output (a v : Word) (s : State) : (memWrite a v s).output = s.output := rfl
@[simp] theorem memWrite_flushed (a v : Word) (s : State) : (memWrite a v s).flushed = s.flushed := rfl
@[simp] theorem memWrite_cfg (a v : Word) (s : State) : (memWrite a v s).cfg = s.cfg := rfl

/-! ## MemRead -/

/-- `MemRead` in three cases: a pure read, a poll that finds no byte, a poll that finds one (R32, R33). The state after
it differs in memory and input alone. -/
theorem memRead_cases (a : Word) (s : State) :
    (a ≠ s.cfg.kbsrAddr ∧ memRead a s = (s.mem.read a, s)) ∨
    (a = s.cfg.kbsrAddr ∧ s.coming = [] ∧ memRead a s = (0, memWrite s.cfg.kbsrAddr 0 s)) ∨
    (∃ rest, a = s.cfg.kbsrAddr ∧ s.coming = none :: rest ∧
      memRead a s = (0, memWrite s.cfg.kbsrAddr 0 (s.setInput rest))) ∨
    (∃ b rest, a = s.cfg.kbsrAddr ∧ s.coming = some b :: rest ∧
      memRead a s = (s.cfg.kbsrReady, memWrite s.cfg.kbsrAddr s.cfg.kbsrReady
        (memWrite s.cfg.kbdrAddr (zext8 b) (s.consume rest)))) := by
  unfold memRead
  split
  · rename_i ha
    rcases inPoll_cases s with ⟨hi, hp⟩ | ⟨rest, hi, hp⟩ | ⟨b, rest, hi, hp⟩
    · exact .inr (.inl ⟨ha, hi, by rw [hp]⟩)
    · exact .inr (.inr (.inl ⟨rest, ha, hi, by rw [hp]; rfl⟩))
    · exact .inr (.inr (.inr ⟨b, rest, ha, hi, by rw [hp]; rfl⟩))
  · rename_i ha
    exact .inl ⟨ha, rfl⟩

theorem memRead_pure {a : Word} {s : State} (h : a ≠ s.cfg.kbsrAddr) : memRead a s = (s.mem.read a, s) := by
  simp [memRead, h]

/-- The state after a `MemRead` is the one before it with another memory, input and position in the input. -/
theorem memRead_state (a : Word) (s : State) :
    ∃ m i n, (memRead a s).2 = { s with mem := m, input := i, consumed := n } := by
  rcases memRead_cases a s with ⟨_, h⟩ | ⟨_, _, h⟩ | ⟨rest, _, _, h⟩ | ⟨b, rest, _, _, h⟩ <;> rw [h]
  exacts [⟨s.mem, s.input, s.consumed, rfl⟩, ⟨_, s.input, s.consumed, rfl⟩, ⟨_, rest, s.consumed, rfl⟩,
    ⟨_, rest, s.consumed + 1, rfl⟩]

@[simp] theorem memRead_regs (a : Word) (s : State) : (memRead a s).2.regs = s.regs := by
  obtain ⟨m, i, n, h⟩ := memRead_state a s; rw [h]
@[simp] theorem memRead_reg (a : Word) (s : State) (r : Reg) : (memRead a s).2.reg r = s.reg r := by
  rw [State.reg, memRead_regs]; rfl
@[simp] theorem memRead_pc (a : Word) (s : State) : (memRead a s).2.pc = s.pc := by
  obtain ⟨m, i, n, h⟩ := memRead_state a s; rw [h]
@[simp] theorem memRead_cond (a : Word) (s : State) : (memRead a s).2.cond = s.cond := by
  obtain ⟨m, i, n, h⟩ := memRead_state a s; rw [h]
@[simp] theorem memRead_run (a : Word) (s : State) : (memRead a s).2.run = s.run := by
  obtain ⟨m, i, n, h⟩ := memRead_state a s; rw [h]
@[simp] theorem memRead_fault (a : Word) (s : State) : (memRead a s).2.fault = s.fault := by
  obtain ⟨m, i, n, h⟩ := memRead_state a s; rw [h]
@[simp] theorem memRead_routine (a : Word) (s : State) : (memRead a s).2.routine = s.routine := by
  obtain ⟨m, i, n, h⟩ := memRead_state a s; rw [h]
@[simp] theorem memRead_inputCycle (a : Word) (s : State) : (memRead a s).2.inputCycle = s.inputCycle := by
  obtain ⟨m, i, n, h⟩ := memRead_state a s; rw [h]
@[simp] theorem memRead_output (a : Word) (s : State) : (memRead a s).2.output = s.output := by
  obtain ⟨m, i, n, h⟩ := memRead_state a s; rw [h]
@[simp] theorem memRead_flushed (a : Word) (s : State) : (memRead a s).2.flushed = s.flushed := by
  obtain ⟨m, i, n, h⟩ := memRead_state a s; rw [h]
@[simp] theorem memRead_cfg (a : Word) (s : State) : (memRead a s).2.cfg = s.cfg := by
  obtain ⟨m, i, n, h⟩ := memRead_state a s; rw [h]

/-- A `MemRead` changes no memory word but the two keyboard cells. -/
theorem memRead_mem_other (a : Word) (s : State) {b : Word} (h1 : b ≠ s.cfg.kbsrAddr) (h2 : b ≠ s.cfg.kbdrAddr) :
    (memRead a s).2.mem.read b = s.mem.read b := by
  rcases memRead_cases a s with ⟨_, h⟩ | ⟨_, _, h⟩ | ⟨rest, _, _, h⟩ | ⟨c, rest, _, _, h⟩ <;> rw [h]
  · simp [Memory.read_write_other _ _ h1]
  · simp [Memory.read_write_other _ _ h1]
  · simp [Memory.read_write_other _ _ h1, Memory.read_write_other _ _ h2]

/-- A `MemRead` keeps the canonical form. -/
theorem memRead_wf (a : Word) {s : State} (hs : s.mem.wf) : (memRead a s).2.mem.wf := by
  rcases memRead_cases a s with ⟨_, h⟩ | ⟨_, _, h⟩ | ⟨rest, _, _, h⟩ | ⟨c, rest, _, _, h⟩ <;> rw [h]
  · exact hs
  · exact Memory.write_wf hs _ _
  · exact Memory.write_wf hs _ _
  · exact Memory.write_wf (Memory.write_wf hs _ _) _ _

/-- A `MemRead` takes a front part off the host's answers, or off those given over and over. -/
theorem memRead_input_suffix (a : Word) (s : State) :
    (memRead a s).2.input <:+ s.input ∨ (memRead a s).2.input <:+ s.inputCycle := by
  rcases memRead_cases a s with ⟨_, h⟩ | ⟨_, hi, h⟩ | ⟨rest, _, hi, h⟩ | ⟨c, rest, _, hi, h⟩ <;>
    simp only [h, memWrite_input, State.setInput_input, State.consume_input]
  · exact .inl (List.suffix_refl _)
  · exact .inl (List.suffix_refl _)
  · exact State.coming_suffix hi
  · exact State.coming_suffix hi

/-! ## Fault entry and fetch -/

/-- The whole effect of a fault (R161). -/
theorem raiseFault_eq (cause : FaultCause) (s : State) :
    raiseFault cause s = { s with fault := some ⟨cause, s.pc - 1⟩, run := .faulted } := rfl

theorem fetch_eq (s : State) : fetch s = ((memRead s.pc s).1, (memRead s.pc s).2.setPc (s.pc + 1)) := by
  simp [fetch, add16]

theorem fetch_plain {s : State} (h : s.pc ≠ s.cfg.kbsrAddr) :
    fetch s = (s.mem.read s.pc, s.setPc (s.pc + 1)) := by
  simp [fetch_eq, memRead_pure h]

/-- The address the faulting instruction was fetched from, from the incremented `pc` (R162). -/
theorem word_add_one_sub_one (a : Word) : a + 1 - 1 = a := by
  simp

end Sys2Proof.Machine
end

