-- ==== Sys2Proof/Laws/PerInstr.lean ====
section
/-! SUPPORT. Facts about every instruction as syntax, one lemma per constructor. Family `EncodesItsOpcode`: the word of
an instruction has the number of its opcode in bits 15 to 12 (30_encoding.md R60, R61). -/

set_option Elab.async false

namespace Sys2Proof.Laws.EncodesItsOpcode

/-- Bits 15 to 12 of the instruction's word are its opcode's number, under every configuration. -/
def Statement (i : Instr) : Prop := ∀ c : Config, Field.opcode (encode c i) = i.opcode.toBits

theorem addReg (dr sr1 sr2 : Reg) : Statement (.addReg dr sr1 sr2) := by
  intro c
  refine BitVec.eq_of_getLsbD_eq fun k hk => ?_
  simp only [Field.opcode, encode, Instr.opcode, BitVec.getLsbD_extractLsb', hk, decide_true, Bool.true_and]
  repeat rw [BitVec.getLsbD_append, if_neg (by omega)]
  congr 1
  omega

theorem addImm (dr sr1 : Reg) (imm5 : BitVec 5) : Statement (.addImm dr sr1 imm5) := by
  intro c
  refine BitVec.eq_of_getLsbD_eq fun k hk => ?_
  simp only [Field.opcode, encode, Instr.opcode, BitVec.getLsbD_extractLsb', hk, decide_true, Bool.true_and]
  repeat rw [BitVec.getLsbD_append, if_neg (by omega)]
  congr 1
  omega

theorem andReg (dr sr1 sr2 : Reg) : Statement (.andReg dr sr1 sr2) := by
  intro c
  refine BitVec.eq_of_getLsbD_eq fun k hk => ?_
  simp only [Field.opcode, encode, Instr.opcode, BitVec.getLsbD_extractLsb', hk, decide_true, Bool.true_and]
  repeat rw [BitVec.getLsbD_append, if_neg (by omega)]
  congr 1
  omega

theorem andImm (dr sr1 : Reg) (imm5 : BitVec 5) : Statement (.andImm dr sr1 imm5) := by
  intro c
  refine BitVec.eq_of_getLsbD_eq fun k hk => ?_
  simp only [Field.opcode, encode, Instr.opcode, BitVec.getLsbD_extractLsb', hk, decide_true, Bool.true_and]
  repeat rw [BitVec.getLsbD_append, if_neg (by omega)]
  congr 1
  omega

theorem not (dr sr : Reg) : Statement (.not dr sr) := by
  intro c
  refine BitVec.eq_of_getLsbD_eq fun k hk => ?_
  simp only [Field.opcode, encode, Instr.opcode, BitVec.getLsbD_extractLsb', hk, decide_true, Bool.true_and]
  repeat rw [BitVec.getLsbD_append, if_neg (by omega)]
  congr 1
  omega

theorem br (n z p : Bool) (off : BitVec 9) : Statement (.br n z p off) := by
  intro c
  refine BitVec.eq_of_getLsbD_eq fun k hk => ?_
  simp only [Field.opcode, encode, Instr.opcode, BitVec.getLsbD_extractLsb', hk, decide_true, Bool.true_and]
  repeat rw [BitVec.getLsbD_append, if_neg (by omega)]
  congr 1
  omega

theorem jmp (baseR : Reg) : Statement (.jmp baseR) := by
  intro c
  refine BitVec.eq_of_getLsbD_eq fun k hk => ?_
  simp only [Field.opcode, encode, Instr.opcode, BitVec.getLsbD_extractLsb', hk, decide_true, Bool.true_and]
  repeat rw [BitVec.getLsbD_append, if_neg (by omega)]
  congr 1
  omega

theorem jsr (off : BitVec 11) : Statement (.jsr off) := by
  intro c
  refine BitVec.eq_of_getLsbD_eq fun k hk => ?_
  simp only [Field.opcode, encode, Instr.opcode, BitVec.getLsbD_extractLsb', hk, decide_true, Bool.true_and]
  repeat rw [BitVec.getLsbD_append, if_neg (by omega)]
  congr 1
  omega

theorem jsrr (baseR : Reg) : Statement (.jsrr baseR) := by
  intro c
  refine BitVec.eq_of_getLsbD_eq fun k hk => ?_
  simp only [Field.opcode, encode, Instr.opcode, BitVec.getLsbD_extractLsb', hk, decide_true, Bool.true_and]
  repeat rw [BitVec.getLsbD_append, if_neg (by omega)]
  congr 1
  omega

theorem ld (r : Reg) (off : BitVec 9) : Statement (.ld r off) := by
  intro c
  refine BitVec.eq_of_getLsbD_eq fun k hk => ?_
  simp only [Field.opcode, encode, Instr.opcode, BitVec.getLsbD_extractLsb', hk, decide_true, Bool.true_and]
  repeat rw [BitVec.getLsbD_append, if_neg (by omega)]
  congr 1
  omega

theorem ldi (r : Reg) (off : BitVec 9) : Statement (.ldi r off) := by
  intro c
  refine BitVec.eq_of_getLsbD_eq fun k hk => ?_
  simp only [Field.opcode, encode, Instr.opcode, BitVec.getLsbD_extractLsb', hk, decide_true, Bool.true_and]
  repeat rw [BitVec.getLsbD_append, if_neg (by omega)]
  congr 1
  omega

theorem ldr (r baseR : Reg) (off : BitVec 6) : Statement (.ldr r baseR off) := by
  intro c
  refine BitVec.eq_of_getLsbD_eq fun k hk => ?_
  simp only [Field.opcode, encode, Instr.opcode, BitVec.getLsbD_extractLsb', hk, decide_true, Bool.true_and]
  repeat rw [BitVec.getLsbD_append, if_neg (by omega)]
  congr 1
  omega

theorem lea (r : Reg) (off : BitVec 9) : Statement (.lea r off) := by
  intro c
  refine BitVec.eq_of_getLsbD_eq fun k hk => ?_
  simp only [Field.opcode, encode, Instr.opcode, BitVec.getLsbD_extractLsb', hk, decide_true, Bool.true_and]
  repeat rw [BitVec.getLsbD_append, if_neg (by omega)]
  congr 1
  omega

theorem st (r : Reg) (off : BitVec 9) : Statement (.st r off) := by
  intro c
  refine BitVec.eq_of_getLsbD_eq fun k hk => ?_
  simp only [Field.opcode, encode, Instr.opcode, BitVec.getLsbD_extractLsb', hk, decide_true, Bool.true_and]
  repeat rw [BitVec.getLsbD_append, if_neg (by omega)]
  congr 1
  omega

theorem sti (r : Reg) (off : BitVec 9) : Statement (.sti r off) := by
  intro c
  refine BitVec.eq_of_getLsbD_eq fun k hk => ?_
  simp only [Field.opcode, encode, Instr.opcode, BitVec.getLsbD_extractLsb', hk, decide_true, Bool.true_and]
  repeat rw [BitVec.getLsbD_append, if_neg (by omega)]
  congr 1
  omega

theorem str (r baseR : Reg) (off : BitVec 6) : Statement (.str r baseR off) := by
  intro c
  refine BitVec.eq_of_getLsbD_eq fun k hk => ?_
  simp only [Field.opcode, encode, Instr.opcode, BitVec.getLsbD_extractLsb', hk, decide_true, Bool.true_and]
  repeat rw [BitVec.getLsbD_append, if_neg (by omega)]
  congr 1
  omega

theorem getc : Statement .getc := fun _ => encodeTrap_opcode _

theorem out : Statement .out := fun _ => encodeTrap_opcode _

theorem puts : Statement .puts := fun _ => encodeTrap_opcode _

theorem in_ : Statement .in_ := fun _ => encodeTrap_opcode _

theorem putsp : Statement .putsp := fun _ => encodeTrap_opcode _

theorem halt : Statement .halt := fun _ => encodeTrap_opcode _

theorem trap (code : Byte) : Statement (.trap code) := fun _ => encodeTrap_opcode code

theorem rti : Statement .rti := fun _ => by simp only [encode]; decide

theorem res : Statement .res := fun _ => by simp only [encode]; decide

end Sys2Proof.Laws.EncodesItsOpcode
end

