-- ==== Sys2Proof/Laws/Strings.lean ====
section
/-! SUPPORT. What the loops of the string routines can do: the fields they change, when they end, and that a string that
has not ended within `readBound` reads never ends. -/

set_option Elab.async false

namespace Sys2Proof.Machine

theorem State.setRoutine_same {s : State} {w : Option Routine} (h : s.routine = w) : s.setRoutine w = s := by
  subst h; rfl

/-! ## What the loops change -/

/-- What the state `t` after a string loop has of the state `s` before it: everything but memory, input and its position,
further output, and which routine runs on; memory differs in the two keyboard cells alone, and answers are used
from the front. -/
structure StringFrame (s t : State) : Prop where
  regs : t.regs = s.regs
  pc : t.pc = s.pc
  cond : t.cond = s.cond
  run : t.run = s.run
  fault : t.fault = s.fault
  flushed : t.flushed = s.flushed
  cfg : t.cfg = s.cfg
  output : s.output <+: t.output
  inputCycle : t.inputCycle = s.inputCycle
  input : t.input <:+ s.input ∨ t.input <:+ s.inputCycle
  memory : ∀ a, a ≠ s.cfg.kbsrAddr → a ≠ s.cfg.kbdrAddr → t.mem.read a = s.mem.read a
  canonical : s.mem.wf → t.mem.wf

theorem StringFrame.rfl {s : State} : StringFrame s s where
  regs := Eq.refl _
  pc := Eq.refl _
  cond := Eq.refl _
  run := Eq.refl _
  fault := Eq.refl _
  flushed := Eq.refl _
  cfg := Eq.refl _
  output := List.prefix_refl _
  inputCycle := Eq.refl _
  input := .inl (List.suffix_refl _)
  memory _ _ _ := Eq.refl _
  canonical h := h

theorem StringFrame.trans {s t u : State} (h : StringFrame s t) (h' : StringFrame t u) : StringFrame s u where
  regs := h'.regs.trans h.regs
  pc := h'.pc.trans h.pc
  cond := h'.cond.trans h.cond
  run := h'.run.trans h.run
  fault := h'.fault.trans h.fault
  flushed := h'.flushed.trans h.flushed
  cfg := h'.cfg.trans h.cfg
  output := h.output.trans h'.output
  inputCycle := h'.inputCycle.trans h.inputCycle
  input := h'.input.elim (fun h1 => h.input.imp h1.trans h1.trans) (fun h1 => .inr (h.inputCycle ▸ h1))
  memory a h1 h2 := (h'.memory a (h.cfg ▸ h1) (h.cfg ▸ h2)).trans (h.memory a h1 h2)
  canonical hs := h'.canonical (h.canonical hs)

theorem stringFrame_memRead (a : Word) (s : State) : StringFrame s (memRead a s).2 where
  regs := memRead_regs a s
  pc := memRead_pc a s
  cond := memRead_cond a s
  run := memRead_run a s
  fault := memRead_fault a s
  flushed := memRead_flushed a s
  cfg := memRead_cfg a s
  output := by rw [memRead_output]
  inputCycle := memRead_inputCycle a s
  input := memRead_input_suffix a s
  memory _ := memRead_mem_other a s
  canonical := memRead_wf a

theorem stringFrame_out (s : State) (b : Byte) : StringFrame s (s.out b) :=
  { StringFrame.rfl with output := List.prefix_append _ _ }

theorem stringFrame_setRoutine (s : State) (w : Option Routine) : StringFrame s (s.setRoutine w) :=
  { StringFrame.rfl with }

/-- The loop of PUTS keeps the frame, from every address, for every number of reads. -/
theorem stringFrame_putsLoop (n : Nat) (a : Word) (s : State) : StringFrame s (putsLoop n a s) := by
  induction n generalizing a s with
  | zero => exact stringFrame_setRoutine s _
  | succ n ih =>
    simp only [putsLoop]
    split
    · exact stringFrame_memRead a s
    · exact ((stringFrame_memRead a s).trans (stringFrame_out _ _)).trans (ih _ _)

/-- The loop of PUTSP keeps the frame, from every word and address, for every number of reads. -/
theorem stringFrame_putspLoop (n : Nat) (w a : Word) (s : State) : StringFrame s (putspLoop n w a s) := by
  induction n generalizing w a s with
  | zero =>
    simp only [putspLoop]
    split
    · exact .rfl
    · exact stringFrame_setRoutine s _
  | succ n ih =>
    simp only [putspLoop]
    split
    · exact .rfl
    · refine StringFrame.trans ?_ (ih _ _ _)
      have h := (stringFrame_out s (lowByte w)).trans (stringFrame_memRead (add16 a 1) (s.out (lowByte w)))
      split
      · exact h
      · exact h.trans (stringFrame_out _ _)

/-! ## Where a loop is cut changes no result -/

/-- PUTS goes on from the address reached as if it had not been cut. -/
theorem putsLoop_add (m n : Nat) (a : Word) {s : State} (hs : s.routine = none) :
    ((putsLoop m a s).routine = none ∧ putsLoop (m + n) a s = putsLoop m a s) ∨
    ∃ a', (putsLoop m a s).routine = some (.puts a') ∧
      putsLoop (m + n) a s = putsLoop n a' ((putsLoop m a s).setRoutine none) := by
  induction m generalizing a s with
  | zero =>
    refine .inr ⟨a, rfl, ?_⟩
    rw [Nat.zero_add]
    exact congrArg (putsLoop n a) (State.setRoutine_same hs).symm
  | succ m ih =>
    rw [Nat.succ_add]
    simp only [putsLoop]
    split
    · exact .inl ⟨by simpa using hs, rfl⟩
    · exact ih _ (by simpa using hs)

/-- PUTSP goes on from the word and address reached as if it had not been cut. -/
theorem putspLoop_add (m n : Nat) (w a : Word) {s : State} (hs : s.routine = none) :
    ((putspLoop m w a s).routine = none ∧ putspLoop (m + n) w a s = putspLoop m w a s) ∨
    ∃ w' a', (putspLoop m w a s).routine = some (.putsp w' a') ∧
      putspLoop (m + n) w a s = putspLoop n w' a' ((putspLoop m w a s).setRoutine none) := by
  induction m generalizing w a s with
  | zero =>
    rw [Nat.zero_add]
    simp only [putspLoop]
    split
    · rename_i hw
      subst hw
      exact .inl ⟨hs, by cases n <;> simp [putspLoop]⟩
    · exact .inr ⟨w, a, rfl, congrArg (putspLoop n w a) (State.setRoutine_same hs).symm⟩
  | succ m ih =>
    rw [Nat.succ_add]
    simp only [putspLoop]
    split
    · exact .inl ⟨hs, rfl⟩
    · refine ih _ _ ?_
      split <;> simpa using hs

/-! ## When a string ends -/

/-- Whether one of the next `n` reads from address `a` on answers zero. -/
def endsWithin : Nat → Word → State → Bool
  | 0, _, _ => false
  | n + 1, a, s => (memRead a s).1 == 0 || endsWithin n (add16 a 1) (memRead a s).2

theorem endsWithin_succ {n : Nat} {a : Word} {s : State} :
    endsWithin (n + 1) a s = true ↔ (memRead a s).1 = 0 ∨ endsWithin n (add16 a 1) (memRead a s).2 = true := by
  simp [endsWithin]

theorem endsWithin_mono {m n : Nat} {a : Word} {s : State} (h : endsWithin m a s = true) (hmn : m ≤ n) :
    endsWithin n a s = true := by
  induction m generalizing n a s with
  | zero => cases h
  | succ m ih =>
    obtain ⟨n, rfl⟩ : ∃ k, n = k + 1 := ⟨n - 1, by omega⟩
    exact endsWithin_succ.2 ((endsWithin_succ.1 h).imp_right fun h => ih h (by omega))

/-- Output takes no part in a read. -/
theorem memRead_out (a : Word) (s : State) (b : Byte) :
    memRead a (s.out b) = ((memRead a s).1, (memRead a s).2.out b) := by
  rcases memRead_cases a s with ⟨ha, h⟩ | ⟨ha, hi, h⟩ | ⟨rest, ha, hi, h⟩ | ⟨c, rest, ha, hi, h⟩ <;> rw [h]
  · exact memRead_pure ha
  all_goals
    have hc : (s.out b).coming = s.coming := rfl
    simp only [memRead, inPoll, hc, hi, ha, State.out_cfg, if_true]
    rfl

@[simp] theorem endsWithin_out (n : Nat) (a : Word) (s : State) (b : Byte) :
    endsWithin n a (s.out b) = endsWithin n a s := by
  induction n generalizing a s with
  | zero => rfl
  | succ n ih => simp only [endsWithin, memRead_out, ih]

/-- PUTS completes exactly when a zero word is read within the number of reads it may make. -/
theorem putsLoop_routine {n : Nat} {a : Word} {s : State} (hs : s.routine = none) :
    (putsLoop n a s).routine = none ↔ endsWithin n a s = true := by
  induction n generalizing a s with
  | zero => simp [putsLoop, endsWithin]
  | succ n ih =>
    simp only [putsLoop, endsWithin_succ]
    split
    · rename_i h; simp [h, hs]
    · rename_i h
      rw [ih (by simpa using hs), endsWithin_out]
      exact ⟨.inr, fun h' => h'.resolve_left h⟩

/-- PUTSP completes exactly when its word is zero or a zero word is read within the number of reads it may make. -/
theorem putspLoop_routine {n : Nat} {w a : Word} {s : State} (hs : s.routine = none) :
    (putspLoop n w a s).routine = none ↔ w = 0 ∨ endsWithin n (add16 a 1) s = true := by
  induction n generalizing w a s with
  | zero =>
    simp only [putspLoop, endsWithin]
    split
    · rename_i h; simp [h, hs]
    · rename_i h; simpa using h
  | succ n ih =>
    simp only [putspLoop, endsWithin_succ]
    split
    · rename_i h; simp [h, hs]
    · rename_i h
      rw [ih (by split <;> simpa using hs), memRead_out]
      have key : endsWithin n (add16 (add16 a 1) 1) (memRead (add16 a 1) s).2 = true ↔
          endsWithin n (add16 (add16 a 1) 1) (if (memRead (add16 a 1) s).1 = 0 ∧ highByte w = 0
            then (memRead (add16 a 1) s).2.out (lowByte w)
            else ((memRead (add16 a 1) s).2.out (lowByte w)).out (highByte w)) = true := by
        split <;> simp
      rw [← key]
      exact ⟨.inr, fun h' => h'.resolve_left h⟩

/-! ## Strings without an end -/

/-- How many steps of `add16 _ 1` lead from `a` to `b`. -/
def wordDistance (a b : Word) : Nat := (b - a).toNat

theorem wordDistance_lt (a b : Word) : wordDistance a b < 65536 := (b - a).isLt

theorem wordDistance_self (a : Word) : wordDistance a a = 0 := by simp [wordDistance]

theorem word_one_toNat : (1 : Word).toNat = 1 := rfl

theorem wordDistance_succ {a b : Word} (h : a ≠ b) : wordDistance (add16 a 1) b + 1 = wordDistance a b := by
  have hne : a.toNat ≠ b.toNat := fun e => h (BitVec.eq_of_toNat_eq e)
  have := a.isLt
  have := b.isLt
  simp only [wordDistance, add16, BitVec.toNat_sub, BitVec.toNat_add, word_one_toNat]
  omega

theorem wordDistance_self_succ (b : Word) : wordDistance (add16 b 1) b = 65535 := by
  have := b.isLt
  simp only [wordDistance, add16, BitVec.toNat_sub, BitVec.toNat_add, word_one_toNat]
  omega

/-- Within a lap a zero word elsewhere than in the keyboard cells ends the string. -/
theorem endsWithin_of_zero_word {n : Nat} {a x : Word} {s : State} (h1 : x ≠ s.cfg.kbsrAddr)
    (h2 : x ≠ s.cfg.kbdrAddr) (hx : s.mem.read x = 0) (hn : wordDistance a x < n) : endsWithin n a s = true := by
  induction n generalizing a s with
  | zero => exact absurd hn (Nat.not_lt_zero _)
  | succ n ih =>
    by_cases hax : a = x
    · subst hax
      exact endsWithin_succ.2 (.inl (by rw [memRead_pure h1]; exact hx))
    · have := wordDistance_succ hax
      exact endsWithin_succ.2 (.inr (ih (by simpa using h1) (by simpa using h2)
        ((memRead_mem_other a s h1 h2).trans hx) (by omega)))

/-- A zero in the keyboard data cell ends the string if that cell comes before the status cell. -/
theorem endsWithin_of_zero_data {n : Nat} {a : Word} {s : State} (hx : s.mem.read s.cfg.kbdrAddr = 0)
    (hb : wordDistance a s.cfg.kbdrAddr < wordDistance a s.cfg.kbsrAddr) (hn : wordDistance a s.cfg.kbdrAddr < n) :
    endsWithin n a s = true := by
  induction n generalizing a with
  | zero => exact absurd hn (Nat.not_lt_zero _)
  | succ n ih =>
    have ha : a ≠ s.cfg.kbsrAddr := fun e => by rw [e, wordDistance_self] at hb; exact Nat.not_lt_zero _ hb
    rw [endsWithin_succ, memRead_pure ha]
    by_cases had : a = s.cfg.kbdrAddr
    · exact .inl (by rw [had]; exact hx)
    · have := wordDistance_succ had
      have := wordDistance_succ ha
      exact .inr (ih (by omega) (by omega))

/-- The reads up to the status cell change nothing: what ends from there ends from here. -/
theorem endsWithin_of_endsWithin_kbsr {m : Nat} {a : Word} {s : State}
    (h : endsWithin m s.cfg.kbsrAddr s = true) : endsWithin (wordDistance a s.cfg.kbsrAddr + m) a s = true := by
  generalize hd : wordDistance a s.cfg.kbsrAddr = d
  induction d generalizing a with
  | zero =>
    have : a = s.cfg.kbsrAddr := by
      refine Decidable.byContradiction fun e => ?_
      have := wordDistance_succ e
      omega
    rw [this, Nat.zero_add]; exact h
  | succ d ih =>
    have ha : a ≠ s.cfg.kbsrAddr := fun e => by rw [e, wordDistance_self] at hd; omega
    have := wordDistance_succ ha
    rw [Nat.succ_add, endsWithin_succ, memRead_pure ha]
    exact .inr (ih (by omega))

/-- The answer that the poll after `k` others gets. -/
def answerAt (cycle : List (Option Byte)) : Nat → List (Option Byte) → Option Byte
  | 0, x :: _ => x
  | 0, [] => cycle.head?.join
  | k + 1, _ :: i => answerAt cycle k i
  | k + 1, [] => answerAt cycle k cycle.tail

theorem answerAt_zero (s : State) : answerAt s.inputCycle 0 s.input = s.coming.head?.join := by
  unfold State.coming
  split <;> rename_i h <;> simp [answerAt, h]

theorem answerAt_succ (s : State) (k : Nat) :
    answerAt s.inputCycle (k + 1) s.input = answerAt s.inputCycle k s.coming.tail := by
  unfold State.coming
  split <;> rename_i h <;> simp [answerAt, h]

/-- An answer that ends a string: no byte, or a byte that makes the data cell zero. -/
def EndsString (x : Option Byte) : Prop := x = none ∨ x = some 0

/-- The string ends at most two laps after the poll that gets such an answer. -/
theorem endsWithin_of_answer {k : Nat} {a : Word} {s : State} (hm : s.mem.wf)
    (hc : s.cfg.kbsrAddr ≠ s.cfg.kbdrAddr) (h : EndsString (answerAt s.inputCycle k s.input)) :
    endsWithin (65536 * (k + 2)) a s = true := by
  induction k generalizing a s with
  | zero =>
    rw [answerAt_zero] at h
    refine endsWithin_mono (endsWithin_of_endsWithin_kbsr (m := 65537) ?_)
      (by have := wordDistance_lt a s.cfg.kbsrAddr; omega)
    rw [endsWithin_succ]
    rcases memRead_cases s.cfg.kbsrAddr s with ⟨ha, _⟩ | ⟨_, _, e⟩ | ⟨rest, _, _, e⟩ | ⟨b, rest, _, hi, e⟩
    · exact absurd rfl ha
    · exact .inl (by rw [e])
    · exact .inl (by rw [e])
    · right
      have hb : b = 0 := by simpa [hi, EndsString] using h
      have hw := Memory.write_wf hm s.cfg.kbdrAddr (zext8 b)
      rw [e]
      refine endsWithin_of_zero_data ?_ ?_ (wordDistance_lt _ _)
      · simp only [memWrite_mem, memWrite_cfg, State.consume_cfg, State.consume_mem]
        rw [Memory.read_write_other _ _ (Ne.symm hc), Memory.read_write_same hm, hb]
        rfl
      · simp only [memWrite_cfg, State.consume_cfg, wordDistance_self_succ]
        have h1 := wordDistance_lt (add16 s.cfg.kbsrAddr 1) s.cfg.kbdrAddr
        have h2 := wordDistance_succ hc
        have h3 := wordDistance_lt s.cfg.kbsrAddr s.cfg.kbdrAddr
        omega
  | succ k ih =>
    rw [answerAt_succ] at h
    refine endsWithin_mono (endsWithin_of_endsWithin_kbsr (m := 65536 * (k + 2) + 1) ?_)
      (by have := wordDistance_lt a s.cfg.kbsrAddr; omega)
    rw [endsWithin_succ]
    rcases memRead_cases s.cfg.kbsrAddr s with ⟨ha, _⟩ | ⟨_, _, e⟩ | ⟨rest, _, _, e⟩ | ⟨b, rest, _, hi, e⟩
    · exact absurd rfl ha
    · exact .inl (by rw [e])
    · exact .inl (by rw [e])
    · refine .inr (ih (memRead_wf _ hm) (by simpa using hc) ?_)
      rw [e]
      simpa [hi] using h

theorem exists_answerAt_of_mem_input {i c : List (Option Byte)} {x : Option Byte} (h : x ∈ i) :
    ∃ k, k < i.length ∧ answerAt c k i = x := by
  induction i with
  | nil => cases h
  | cons y i ih =>
    rcases List.mem_cons.1 h with rfl | h
    · exact ⟨0, by simp, rfl⟩
    · obtain ⟨k, hk, e⟩ := ih h
      exact ⟨k + 1, by simpa using hk, e⟩

theorem answerAt_length_add (c i : List (Option Byte)) (k : Nat) :
    answerAt c (i.length + k) i = answerAt c k [] := by
  induction i with
  | nil => simp
  | cons x i ih => rw [List.length_cons, Nat.succ_add]; exact ih

theorem answerAt_nil (c : List (Option Byte)) (k : Nat) : answerAt c k [] = answerAt c k c := by
  cases c <;> cases k <;> rfl

/-- What a string without an end needs (R190), but for the keyboard data cell: the words of memory elsewhere than in the
keyboard cells and the answers of the host. -/
structure NearlyEndless (s : State) : Prop where
  words : ∀ a, a ≠ s.cfg.kbsrAddr → a ≠ s.cfg.kbdrAddr → s.mem.read a ≠ 0
  listed : ∀ x ∈ s.input, ¬EndsString x
  cycle : s.inputCycle ≠ []
  cycled : ∀ x ∈ s.inputCycle, ¬EndsString x

/-- What a string without an end needs (R190). -/
structure Endless (s : State) : Prop extends NearlyEndless s where
  data : s.mem.read s.cfg.kbdrAddr ≠ 0

theorem NearlyEndless.coming {s : State} (h : NearlyEndless s) : ∀ x ∈ s.coming, ¬EndsString x := by
  unfold State.coming
  split
  · exact h.cycled
  · rename_i hl; rw [← hl]; exact h.listed

/-- A read of such a state: a plain one, or a poll that gets a byte other than zero. -/
theorem NearlyEndless.memRead_cases {s : State} (h : NearlyEndless s) (a : Word) :
    (a ≠ s.cfg.kbsrAddr ∧ memRead a s = (s.mem.read a, s)) ∨
    (∃ b rest, a = s.cfg.kbsrAddr ∧ b ≠ 0 ∧ (∀ x ∈ rest, ¬EndsString x) ∧
      memRead a s = (s.cfg.kbsrReady, memWrite s.cfg.kbsrAddr s.cfg.kbsrReady
        (memWrite s.cfg.kbdrAddr (zext8 b) (s.consume rest)))) := by
  have hin := h.coming
  rcases Machine.memRead_cases a s with hp | ⟨_, hi, e⟩ | ⟨rest, _, hi, e⟩ | ⟨b, rest, ha, hi, e⟩
  · exact .inl hp
  · exact absurd (State.coming_eq_nil.1 hi).2 h.cycle
  · exact absurd (.inl rfl) (hin none (by simp [hi]))
  · exact .inr ⟨b, rest, ha, fun hb => hin (some b) (by simp [hi]) (.inr (congrArg some hb)),
      fun x hx => hin x (by rw [hi]; exact List.mem_cons_of_mem _ hx), e⟩

theorem zext8_ne_zero {b : Byte} (h : b ≠ 0) : zext8 b ≠ 0 := fun hz => h (by
  have := congrArg (BitVec.setWidth 8) hz
  simpa [zext8] using this)

theorem NearlyEndless.memRead {s : State} (h : NearlyEndless s) (a : Word) : NearlyEndless (memRead a s).2 := by
  rcases h.memRead_cases a with ⟨_, e⟩ | ⟨b, rest, _, _, hr, e⟩ <;> rw [e]
  · exact h
  · refine ⟨fun x h1 h2 => ?_, hr, h.cycle, h.cycled⟩
    simp only [memWrite_cfg, State.consume_cfg] at h1 h2
    simp only [memWrite_mem, State.consume_mem]
    rw [Memory.read_write_other _ _ h1, Memory.read_write_other _ _ h2]
    exact h.words x h1 h2

/-- A poll makes the data cell other than zero. -/
theorem NearlyEndless.poll {s : State} (h : NearlyEndless s) (hm : s.mem.wf) (hc : s.cfg.wf) :
    Endless (Machine.memRead s.cfg.kbsrAddr s).2 := by
  refine ⟨h.memRead _, ?_⟩
  rcases h.memRead_cases s.cfg.kbsrAddr with ⟨ha, _⟩ | ⟨b, rest, _, hb, _, e⟩
  · exact absurd rfl ha
  · rw [e]
    simp only [memWrite_mem, memWrite_cfg, State.consume_cfg, State.consume_mem]
    rw [Memory.read_write_other _ _ (Ne.symm hc.1), Memory.read_write_same hm]
    exact zext8_ne_zero hb

theorem Endless.memRead {s : State} (h : Endless s) (hm : s.mem.wf) (hc : s.cfg.wf) (a : Word) :
    Endless (memRead a s).2 := by
  rcases h.memRead_cases a with ⟨_, e⟩ | ⟨b, rest, ha, _, _, _⟩
  · rw [e]; exact h
  · rw [ha]; exact h.toNearlyEndless.poll hm hc

theorem Endless.out {s : State} (h : Endless s) (b : Byte) : Endless (s.out b) :=
  ⟨⟨h.words, h.listed, h.cycle, h.cycled⟩, h.data⟩

theorem Endless.setRoutine {s : State} (h : Endless s) (w : Option Routine) : Endless (s.setRoutine w) :=
  ⟨⟨h.words, h.listed, h.cycle, h.cycled⟩, h.data⟩

theorem NearlyEndless.out {s : State} (h : NearlyEndless s) (b : Byte) : NearlyEndless (s.out b) :=
  ⟨h.words, h.listed, h.cycle, h.cycled⟩

/-- A read of a string without an end answers no zero. -/
theorem Endless.read_ne_zero {s : State} (h : Endless s) (hc : s.cfg.wf) (a : Word) : (Machine.memRead a s).1 ≠ 0 := by
  rcases h.memRead_cases a with ⟨ha, e⟩ | ⟨b, rest, _, _, _, e⟩ <;> rw [e]
  · by_cases hd : a = s.cfg.kbdrAddr
    · rw [hd]; exact h.data
    · exact h.words a ha hd
  · intro hz
    have hr := hc.2.1
    change s.cfg.kbsrReady = 0 at hz
    rw [hz] at hr
    cases hr

/-- A string without an end does not end within any number of reads. -/
theorem Endless.endsWithin {s : State} (h : Endless s) (hm : s.mem.wf) (hc : s.cfg.wf) (n : Nat) (a : Word) :
    Machine.endsWithin n a s = false := by
  induction n generalizing a s with
  | zero => rfl
  | succ n ih =>
    refine Bool.eq_false_iff.2 fun he => (endsWithin_succ.1 he).elim (h.read_ne_zero hc a) fun h' => ?_
    rw [ih (h.memRead hm hc a) (memRead_wf a hm) (by rw [memRead_cfg]; exact hc)] at h'
    cases h'

/-! ## A string that has not ended within the bound never ends -/

theorem endsString_of_not_endless {s : State}
    (h : ¬((∀ x ∈ s.input, ¬EndsString x) ∧ s.inputCycle ≠ [] ∧ ∀ x ∈ s.inputCycle, ¬EndsString x)) :
    ∃ k, k ≤ s.input.length + s.inputCycle.length ∧ EndsString (answerAt s.inputCycle k s.input) := by
  refine Classical.byContradiction fun hk => h ⟨fun x hx he => hk ?_, fun hc => hk ?_, fun x hx he => hk ?_⟩
  · obtain ⟨k, hl, e⟩ := exists_answerAt_of_mem_input (c := s.inputCycle) hx
    exact ⟨k, by omega, e ▸ he⟩
  · refine ⟨s.input.length, by omega, .inl ?_⟩
    rw [show s.input.length = s.input.length + 0 from rfl, answerAt_length_add, hc]
    rfl
  · obtain ⟨k, hl, e⟩ := exists_answerAt_of_mem_input (c := s.inputCycle) hx
    refine ⟨s.input.length + k, by omega, ?_⟩
    rw [answerAt_length_add, answerAt_nil, e]
    exact he

theorem nearlyEndless_of_bound {s : State} {a : Word} (hm : s.mem.wf) (hc : s.cfg.wf)
    (h : Machine.endsWithin (readBound s) a s = false) : NearlyEndless s := by
  have key : (∀ x ∈ s.input, ¬EndsString x) ∧ s.inputCycle ≠ [] ∧ ∀ x ∈ s.inputCycle, ¬EndsString x := by
    refine Classical.byContradiction fun hn => ?_
    obtain ⟨k, hk, he⟩ := endsString_of_not_endless hn
    rw [endsWithin_mono (endsWithin_of_answer hm hc.1 he) (n := readBound s)
      (by simp only [readBound]; omega)] at h
    cases h
  refine ⟨fun x h1 h2 hx => ?_, key.1, key.2.1, key.2.2⟩
  rw [endsWithin_of_zero_word h1 h2 hx (n := readBound s)
    (by have := wordDistance_lt a x; simp only [readBound]; omega)] at h
  cases h

theorem Endless.putsLoop {s : State} (h : Endless s) (hm : s.mem.wf) (hc : s.cfg.wf) (n : Nat) (a : Word) :
    Endless (putsLoop n a s) := by
  induction n generalizing a s with
  | zero => exact h.setRoutine _
  | succ n ih =>
    simp only [Machine.putsLoop]
    rw [if_neg (h.read_ne_zero hc a)]
    exact ih ((h.memRead hm hc a).out _) (memRead_wf a hm) (by simpa using hc) _

theorem Endless.putspLoop {s : State} (h : Endless s) (hm : s.mem.wf) (hc : s.cfg.wf) (n : Nat) (w a : Word) :
    Endless (putspLoop n w a s) := by
  induction n generalizing w a s with
  | zero =>
    simp only [Machine.putspLoop]
    split
    · exact h
    · exact h.setRoutine _
  | succ n ih =>
    simp only [Machine.putspLoop]
    split
    · exact h
    · have h' := (h.out (lowByte w)).memRead hm hc (add16 a 1)
      split
      · exact ih h' (memRead_wf _ hm) (by simpa using hc) _ _
      · exact ih (h'.out _) (memRead_wf _ hm) (by simpa using hc) _ _

theorem NearlyEndless.putsLoop {n : Nat} {a : Word} {s : State} (h : NearlyEndless s) (hm : s.mem.wf) (hc : s.cfg.wf)
    (hn : wordDistance a s.cfg.kbsrAddr < n) (hr : Machine.endsWithin n a s = false) : Endless (putsLoop n a s) := by
  induction n generalizing a s with
  | zero => exact absurd hn (Nat.not_lt_zero _)
  | succ n ih =>
    have hr' := Bool.eq_false_iff.1 hr
    rw [Ne, endsWithin_succ, not_or] at hr'
    simp only [Machine.putsLoop]
    rw [if_neg hr'.1]
    by_cases ha : a = s.cfg.kbsrAddr
    · subst ha
      exact ((h.poll hm hc).out _).putsLoop (memRead_wf _ hm) (by simpa using hc) _ _
    · have := wordDistance_succ ha
      refine ih ((h.memRead a).out _) (memRead_wf a hm) (by simpa using hc) ?_ ?_
      · simp only [State.out_cfg, memRead_cfg]; omega
      · rw [endsWithin_out]; exact Bool.eq_false_iff.2 hr'.2

theorem NearlyEndless.putspLoop {n : Nat} {w a : Word} {s : State} (h : NearlyEndless s) (hm : s.mem.wf)
    (hc : s.cfg.wf) (hw : w ≠ 0) (hn : wordDistance (add16 a 1) s.cfg.kbsrAddr < n)
    (hr : Machine.endsWithin n (add16 a 1) s = false) : Endless (putspLoop n w a s) := by
  induction n generalizing w a s with
  | zero => exact absurd hn (Nat.not_lt_zero _)
  | succ n ih =>
    have hr' := Bool.eq_false_iff.1 hr
    rw [Ne, endsWithin_succ, not_or] at hr'
    simp only [Machine.putspLoop]
    have hne : (Machine.memRead (add16 a 1) (s.out (lowByte w))).1 ≠ 0 := by rw [memRead_out]; exact hr'.1
    rw [if_neg hw, if_neg (fun hb => hne hb.1)]
    by_cases ha : add16 a 1 = s.cfg.kbsrAddr
    · rw [ha]
      exact (((h.out (lowByte w)).poll hm hc).out _).putspLoop (memRead_wf _ hm) (by simpa using hc) _ _ _
    · have := wordDistance_succ ha
      refine ih (((h.out (lowByte w)).memRead (add16 a 1)).out _) (memRead_wf _ hm) (by simpa using hc) hne ?_ ?_
      · simp only [State.out_cfg, memRead_cfg]; omega
      · rw [endsWithin_out, memRead_out, endsWithin_out]; exact Bool.eq_false_iff.2 hr'.2

/-- PUTS that has not completed has come to a string without an end. -/
theorem putsLoop_endless {a : Word} {s : State} (hs : s.routine = none) (hm : s.mem.wf) (hc : s.cfg.wf)
    (h : (putsLoop (readBound s) a s).routine ≠ none) : Endless (putsLoop (readBound s) a s) := by
  have hr : Machine.endsWithin (readBound s) a s = false :=
    Bool.eq_false_iff.2 fun he => h ((putsLoop_routine hs).2 he)
  refine (nearlyEndless_of_bound hm hc hr).putsLoop hm hc ?_ hr
  have := wordDistance_lt a s.cfg.kbsrAddr
  simp only [readBound]
  omega

/-- PUTSP that has not completed has come to a string without an end. -/
theorem putspLoop_endless {a : Word} {s : State} (hs : s.routine = none) (hm : s.mem.wf) (hc : s.cfg.wf)
    (h : (putspLoop (readBound s) (memRead a s).1 a (memRead a s).2).routine ≠ none) :
    Endless (putspLoop (readBound s) (memRead a s).1 a (memRead a s).2) := by
  have hs' : (memRead a s).2.routine = none := by rw [memRead_routine]; exact hs
  have hr : ¬((memRead a s).1 = 0 ∨ Machine.endsWithin (readBound s) (add16 a 1) (memRead a s).2 = true) :=
    fun he => h ((putspLoop_routine hs').2 he)
  rw [not_or] at hr
  have hb : Machine.endsWithin (readBound s) a s = false := Bool.eq_false_iff.2 fun he =>
    (endsWithin_succ.1 (endsWithin_mono he (Nat.le_succ _))).elim hr.1 hr.2
  refine ((nearlyEndless_of_bound hm hc hb).memRead a).putspLoop (memRead_wf a hm) (by simpa using hc) hr.1 ?_
    (Bool.eq_false_iff.2 hr.2)
  have := wordDistance_lt (add16 a 1) (memRead a s).2.cfg.kbsrAddr
  simp only [readBound]
  omega

end Sys2Proof.Machine
end

