-- ==== Sys2Proof/Tests/Slice0.lean ====
section
/-! SUPPORT. Tests of the model. Expected values are those of spec/95_test_vectors.md (its section is named before each
group) or are worked out by hand from the rule named. Words are written out from the pattern strings of 30_encoding.md
R63. At the end, one witness for the hypotheses of each statement of Certificates/Slice0/Obligations.lean. -/

set_option Elab.async false

namespace Sys2Proof.Tests

open Sys2Proof Sys2Proof.Machine

/-- The reset state with a word placed at `pc`. -/
def placed (pc word : Word) : State := memWrite pc word (State.reset.setPc pc)

/-- The state of an outcome; every test's outcome is a next state, which the tests' values show. -/
def stateOf (o : Host.Outcome State Fault Refusal) : State :=
  match o with
  | .next t => t
  | .fault _ => State.reset.setRun .halted
  | .refused _ => State.reset.setRun .halted

/-- Whether an outcome is a next state. -/
def isNext (o : Host.Outcome State Fault Refusal) : Bool :=
  match o with
  | .next _ => true
  | .fault _ => false
  | .refused _ => false

theorem next_of_isNext {o : Host.Outcome State Fault Refusal} (h : isNext o = true) : o = .next (stateOf o) := by
  cases o with
  | next t => rfl
  | fault f => cases h
  | refused r => cases h

theorem some_next {o : Host.Outcome State Fault Refusal} (h : isNext o = true) : ∃ t, o = .next t :=
  ⟨_, next_of_isNext h⟩

/-- One step. -/
def stepped (s : State) : State := stateOf (step s)

/-! ## Well-formedness -/

theorem test_wf_refuses_trap_with_a_known_code : (Instr.trap 0x25).wf Config.default = false := by decide
theorem test_wf_accepts_trap_with_another_code : (Instr.trap 0x26).wf Config.default = true := by decide
theorem test_config_wf_refuses_equal_device_addresses :
    ¬({ Config.default with kbdrAddr := 0xFE00 } : Config).wf := by decide
theorem test_config_wf_refuses_ready_without_high_bit :
    ¬({ Config.default with kbsrReady := 0x7FFF } : Config).wf := by decide
theorem test_config_wf_refuses_equal_trap_numbers :
    ¬({ Config.default with trapIn := 0x20 } : Config).wf := by decide
theorem test_memory_wf_refuses_zero_words : ¬Memory.wf [(0x3000, 0)] := by decide
theorem test_memory_wf_refuses_falling_addresses : ¬Memory.wf [(2, 1), (1, 1)] := by decide
theorem test_memory_wf_refuses_addresses_past_the_top : ¬Memory.wf [(65536, 1)] := by decide

/-! ## Decoding, word by word from R63 -/

theorem test_decode_add_register : decode Config.default 0b0001000001000010 = .addReg .r0 .r1 .r2 := by decide
theorem test_decode_add_register_unused_bits :
    decode Config.default 0b0001000001011010 = .addReg .r0 .r1 .r2 := by decide
theorem test_decode_add_immediate :
    decode Config.default 0b0001000001111111 = .addImm .r0 .r1 0b11111 := by decide
theorem test_decode_and_register : decode Config.default 0b0101001010000011 = .andReg .r1 .r2 .r3 := by decide
theorem test_decode_and_immediate : decode Config.default 0b0101001010110000 = .andImm .r1 .r2 0b10000 := by decide
theorem test_decode_not : decode Config.default 0b1001010001111111 = .not .r2 .r1 := by decide
theorem test_decode_br : decode Config.default 0b0000010000000001 = .br false true false 1 := by decide
theorem test_decode_br_n : decode Config.default 0b0000100111111111 = .br true false false 0x1FF := by decide
theorem test_decode_jmp_unused_bits : decode Config.default 0b1100111111000000 = .jmp .r7 := by decide
theorem test_decode_jsr : decode Config.default 0b0100110000000000 = .jsr 0x400 := by decide
theorem test_decode_jsrr_unused_bits : decode Config.default 0b0100011010111111 = .jsrr .r2 := by decide
theorem test_decode_ld : decode Config.default 0b0010001000001000 = .ld .r1 8 := by decide
theorem test_decode_ldi : decode Config.default 0b1010000000000001 = .ldi .r0 1 := by decide
theorem test_decode_ldr : decode Config.default 0b0110011001100000 = .ldr .r3 .r1 0b100000 := by decide
theorem test_decode_lea : decode Config.default 0b1110001000001010 = .lea .r1 10 := by decide
theorem test_decode_st : decode Config.default 0b0011000000000100 = .st .r0 4 := by decide
theorem test_decode_sti : decode Config.default 0b1011010000000110 = .sti .r2 6 := by decide
theorem test_decode_str : decode Config.default 0b0111010001111111 = .str .r2 .r1 0b111111 := by decide
theorem test_decode_getc : decode Config.default 0b1111000000100000 = .getc := by decide
theorem test_decode_out : decode Config.default 0b1111000000100001 = .out := by decide
theorem test_decode_puts : decode Config.default 0b1111000000100010 = .puts := by decide
theorem test_decode_in : decode Config.default 0b1111000000100011 = .in_ := by decide
theorem test_decode_putsp : decode Config.default 0b1111000000100100 = .putsp := by decide
theorem test_decode_halt_unused_bits : decode Config.default 0b1111000100100101 = .halt := by decide
theorem test_decode_trap : decode Config.default 0b1111000000100110 = .trap 0x26 := by decide
theorem test_decode_rti : decode Config.default 0b1000111111111111 = .rti := by decide
theorem test_decode_res : decode Config.default 0b1101101010111100 = .res := by decide
theorem test_encode_not_sets_unused_bits : encode Config.default (.not .r2 .r1) = 0x947F := by decide
theorem test_encode_ret : encode Config.default (.jmp .r7) = 0xC1C0 := by decide
theorem test_table_word : decodeTableWord 16 0xF025 = some .halt := by decide

/-! ## Operate (2.2) -/

theorem test_add_overflow_is_negative :
    let t := stepped (((placed 0x3000 0x1042).setReg .r1 0x7FFF).setReg .r2 0x0001)
    t.reg .r0 = 0x8000 ∧ t.cond = .n ∧ t.pc = 0x3001 := by decide
theorem test_add_carry_is_lost :
    let t := stepped (((placed 0x3000 0x1042).setReg .r1 0xFFFF).setReg .r2 0x0001)
    t.reg .r0 = 0 ∧ t.cond = .z := by decide
theorem test_add_immediate_minus_one :
    let t := stepped ((placed 0x3000 0x107F).setReg .r1 5)
    t.reg .r0 = 4 ∧ t.cond = .p := by decide
theorem test_add_immediate_minus_sixteen :
    let t := stepped ((placed 0x3000 0x14B0).setReg .r2 8)
    t.reg .r2 = 0xFFF8 ∧ t.cond = .n := by decide
theorem test_and_register :
    let t := stepped (((placed 0x3000 0x5283).setReg .r2 0xF0F0).setReg .r3 0xFF00)
    t.reg .r1 = 0xF000 ∧ t.cond = .n := by decide
theorem test_and_immediate_extends_the_sign :
    let t := stepped ((placed 0x3000 0x52B0).setReg .r2 0xABCD)
    t.reg .r1 = 0xABC0 ∧ t.cond = .n := by decide
theorem test_not :
    let t := stepped ((placed 0x3000 0x947F).setReg .r1 0x8000)
    t.reg .r2 = 0x7FFF ∧ t.cond = .p := by decide

/-! ## Control (2.3) -/

theorem test_br_taken : (stepped ((placed 0x3006 0x0401).setCond .z)).pc = 0x3008 := by decide
theorem test_br_not_taken_at_reset : (stepped (placed 0x3000 0x0E01)).pc = 0x3001 := by decide
theorem test_jmp : (stepped ((placed 0x3000 0xC0C0).setReg .r3 0x4000)).pc = 0x4000 := by decide
theorem test_jsr :
    let t := stepped ((placed 0x3000 0x4C00).setCond .p)
    t.reg .r7 = 0x3001 ∧ t.pc = 0x2C01 ∧ t.cond = .p := by decide
theorem test_jsrr_r7_goes_to_the_link :
    let t := stepped ((placed 0x3000 0x41C0).setReg .r7 0x5000)
    t.reg .r7 = 0x3001 ∧ t.pc = 0x3001 := by decide
theorem test_jsrr : (stepped ((placed 0x3000 0x4080).setReg .r2 0x5000)).pc = 0x5000 := by decide

/-! ## Loads (2.4) -/

theorem test_ld_own_word : (stepped (placed 0x3000 0x21FF)).reg .r0 = 0x21FF := by decide
theorem test_ldi :
    let t := stepped (memWrite 0x4000 0x1234 (memWrite 0x3000 0x4000 (placed 0x2FFE 0xA001)))
    t.reg .r0 = 0x1234 ∧ t.cond = .p := by decide
theorem test_ldr_wraps : (stepped (memWrite 0 7 ((placed 0x3000 0x6041).setReg .r1 0xFFFF))).reg .r0 = 7 := by decide
theorem test_ldr_status_polls :
    let t := stepped (((placed 0x3000 0x6040).setReg .r1 0xFE00).supply [some 0x41])
    t.reg .r0 = 0x8000 ∧ t.cond = .n ∧ t.mem.read 0xFE02 = 0x0041 ∧ t.input = [] := by decide
theorem test_lea_at_the_top :
    let t := stepped (placed 0xFFFF 0xE000)
    t.reg .r0 = 0 ∧ t.cond = .z ∧ t.pc = 0 := by decide

/-! ## Stores (2.5) -/

theorem test_st_overwrites_itself : (stepped (placed 0x3000 0x31FF)).mem.read 0x3000 = 0 := by decide
theorem test_sti :
    (stepped ((memWrite 0x300A 0x4000 (placed 0x3003 0xB406)).setReg .r2 0x8000)).mem.read 0x4000 = 0x8000 := by
  decide
theorem test_str_wraps : (stepped ((placed 0x3000 0x747F).setReg .r2 0xBEEF)).mem.read 0xFFFF = 0xBEEF := by decide
theorem test_str_to_status_does_not_poll :
    let t := stepped ((((placed 0x3000 0x7440).setReg .r1 0xFE00).setReg .r2 0x1234).supply [some 1])
    t.mem.read 0xFE00 = 0x1234 ∧ t.input = [some 1] := by decide

/-! ## Traps (2.6) and reserved opcodes (2.7) -/

theorem test_getc_keeps_flags :
    let t := stepped (((placed 0x3000 0xF020).setCond .z).supply [none, some 0xFF])
    t.reg .r0 = 0x00FF ∧ t.cond = .z ∧ t.output = [] ∧ t.consumed = 1 := by decide
theorem test_getc_waits_for_ever :
    let t := stepped (placed 0x3000 0xF020)
    t.run = .running ∧ t.routine = some .getc ∧ t.pc = 0x3001 ∧ stepped t = t := by decide
theorem test_getc_is_one_step_after_waiting :
    let t := stepped (((placed 0x3000 0xF020).supply [none]).setInputCycle [none, some 0x41])
    t.routine = none ∧ t.reg .r0 = 0x41 ∧ t.input = [] ∧ t.consumed = 1 := by decide
theorem test_poll_takes_up_the_cycle :
    let r := inPoll (State.reset.setInputCycle [some 0x41, none])
    r.1 = some 0x41 ∧ r.2.input = [none] ∧ r.2.inputCycle = [some 0x41, none] := by decide
theorem test_out : (stepped ((placed 0x3000 0xF021).setReg .r0 0x1241)).output = [0x41] := by decide
theorem test_puts_wraps :
    (stepped ((memWrite 0 0x42 (memWrite 0xFFFF 0x41 (placed 0x3000 0xF022))).setReg .r0 0xFFFF)).output =
      [0x41, 0x42] := by decide
theorem test_puts_zero_low_byte :
    (stepped ((memWrite 0x4001 0x0100 (memWrite 0x4000 0x0148 (placed 0x3000 0xF022))).setReg .r0 0x4000)).output =
      [0x48, 0x00] := by decide
theorem test_in :
    let t := stepped ((placed 0x3000 0xF023).supply [some 0x78])
    t.reg .r0 = 0x78 ∧ t.output = Config.default.inPrompt ++ [0x78] := by decide
theorem test_putsp_odd_length :
    (stepped ((memWrite 0x4001 0x006C (memWrite 0x4000 0x6548 (placed 0x3000 0xF024))).setReg .r0 0x4000)).output =
      [0x48, 0x65, 0x6C] := by decide
theorem test_putsp_zero_byte_inside :
    (stepped ((memWrite 0x4001 0x4242 (memWrite 0x4000 0x0041 (placed 0x3000 0xF024))).setReg .r0 0x4000)).output =
      [0x41, 0x00, 0x42, 0x42] := by decide
theorem test_puts_loop_without_an_end_yet :
    let t := putsLoop 1 0x4000 (memWrite 0x4000 0x0141 State.reset)
    t.routine = some (.puts 0x4001) ∧ t.output = [0x41] := by decide
theorem test_puts_goes_on_and_ends :
    let t := stepped ((memWrite 0x4001 0x42 State.reset).setRoutine (some (.puts 0x4001)))
    t.routine = none ∧ t.output = [0x42] ∧ t.pc = 0x3000 := by decide
theorem test_putsp_loop_without_an_end_yet :
    let t := putspLoop 1 0x6548 0x4000 (memWrite 0x4001 0x006C State.reset)
    t.routine = some (.putsp 0x006C 0x4001) ∧ t.output = [0x48, 0x65] := by decide
theorem test_putsp_goes_on_and_ends :
    let t := stepped (State.reset.setRoutine (some (.putsp 0x006C 0x4001)))
    t.routine = none ∧ t.output = [0x6C] ∧ t.pc = 0x3000 := by decide
theorem test_in_waits_after_the_prompt :
    let t := stepped (placed 0x3000 0xF023)
    t.routine = some .in_ ∧ t.output = Config.default.inPrompt ∧ t.pc = 0x3001 := by decide
theorem test_halt :
    let t := stepped (placed 0x300A 0xF025)
    t.run = .halted ∧ t.pc = 0x300B ∧ t.output = Config.default.haltNotice ∧ t.flushed = 5 := by decide
theorem test_trap_unknown :
    let t := stepped (placed 0x3000 0xF026)
    t.run = .faulted ∧ t.fault = some ⟨.unknownTrap 0x26, 0x3000⟩ ∧ t.pc = 0x3001 := by decide
theorem test_rti :
    let t := stepped (placed 0x3001 0x8000)
    t.run = .faulted ∧ t.fault = some ⟨.reservedOpcode 8, 0x3001⟩ ∧ t.pc = 0x3002 := by decide
theorem test_res :
    let t := stepped (placed 0x4000 0xDABC)
    t.run = .faulted ∧ t.fault = some ⟨.reservedOpcode 13, 0x4000⟩ ∧ t.pc = 0x4001 := by decide

/-! ## Fetch, reset, loading (2.8) -/

theorem test_empty_memory_steps_over_the_top : (stepped (State.reset.setPc 0xFFFF)).pc = 0 := by decide
theorem test_fetch_word_runs_at_the_status_address :
    (stepped ((State.reset.setPc 0xFE00).withFetchWord 16 0xF025)).run = .halted := by decide
theorem test_load_big_endian : (stateOf (launch Config.default [some [0x30, 0x00, 0x00, 0x01]])).mem =
    [(0x3000, 0x0001)] := by decide
theorem test_load_later_image_wins :
    (stateOf (launch Config.default [some [0x30, 0, 0x11, 0x11, 0x22, 0x22], some [0x30, 1, 0x33, 0x33]])).mem =
      [(0x3000, 0x1111), (0x3001, 0x3333)] := by decide
theorem test_load_boundary_image_is_rejected :
    loadImage [0xFF, 0xFE, 0x00, 0x01, 0x00, 0x02] [] = .error .pastTop := by rfl
theorem test_load_odd_image_is_rejected : loadImage [0x30, 0x00, 0x12] [] = .error .oddLength := by rfl

/-! ## Witnesses: states and operands that meet the hypotheses of each statement, clause by clause -/

theorem witness_DecodeOfEncodeIsTheInstruction :
    Config.default.wf ∧ (Instr.trap 0xFF).wf Config.default = true ∧ (Instr.jsr 0x400).wf Config.default =
      true := by
  decide
theorem witness_UnusedBitsMakeNoDifference :
    (0x1042 : Word) &&& (decode Config.default 0x1042).usedBits = 0x105A &&& (decode Config.default 0x1042).usedBits ∧
    (0x1042 : Word) ≠ 0x105A := by decide
theorem witness_TrapCodeSelectsTheRoutine :
    Config.default.wf ∧ (0xFF20 : Word).extractLsb' 12 4 = 0b1111 ∧
    (0xFF20 : Word).extractLsb' 0 8 = Config.default.trapGetc ∧
    (0xF021 : Word).extractLsb' 0 8 = Config.default.trapOut ∧
    (0xF022 : Word).extractLsb' 0 8 = Config.default.trapPuts ∧
    (0xF023 : Word).extractLsb' 0 8 = Config.default.trapIn ∧
    (0xF024 : Word).extractLsb' 0 8 = Config.default.trapPutsp ∧
    (0xF025 : Word).extractLsb' 0 8 = Config.default.trapHalt ∧
    (0xF0FF : Word).extractLsb' 0 8 ∉ Config.default.trapNumbers := by decide
theorem witness_StepIsExecOfTheFetchedInstruction :
    State.reset.run = .running ∧ State.reset.routine = none ∧ State.reset.pc ≠ State.reset.cfg.kbsrAddr ∧
    decode State.reset.cfg (State.reset.mem.read State.reset.pc) = .br false false false 0 := by decide
theorem witness_FetchWordIsWhatTheNextStepRuns :
    State.reset.mem.wf ∧ 65535 < 65536 ∧ State.reset.pc ≠ State.reset.cfg.kbsrAddr ∧
    (State.reset.setPc 0xFE00).pc = (State.reset.setPc 0xFE00).cfg.kbsrAddr := by decide
theorem witness_HaltedAndFaultedStatesAreFrozen :
    (stepped (placed 0x3000 0xF025)).run ≠ .running ∧ (stepped (placed 0x3000 0x8000)).run ≠ .running := by decide
theorem witness_RunStateChangesOnlyByHaltAndFaults :
    (placed 0x3000 0xF025).run = .running ∧ (placed 0x3000 0xF025).routine = none ∧
    ∃ t, step (placed 0x3000 0xF025) = .next t := ⟨rfl, rfl, some_next (by decide)⟩
theorem witness_FaultsArePrecise :
    (placed 0xFFFF 0x8000).run = .running ∧ (placed 0xFFFF 0x8000).routine = none ∧
    ∃ t, step (placed 0xFFFF 0x8000) = .next t ∧ t.run = .faulted :=
  ⟨rfl, rfl, _, next_of_isNext (by decide), by decide⟩
theorem witness_FetchAtTheStatusWordPolls :
    let s := State.reset.setPc 0xFE00
    s.run = .running ∧ s.routine = none ∧ s.pc = s.cfg.kbsrAddr ∧ s.cfg.kbsrReady = 0x8000 ∧
    s.coming = [] ∧ (s.supply [none]).coming = none :: [] ∧ (s.supply [some 0xFF]).coming = some 0xFF :: [] := by decide
theorem witness_decode_clauses_register_and_immediate :
    (0x1042 : Word).extractLsb' 12 4 = 0b0001 ∧ (0x1042 : Word).getLsbD 5 = false ∧
    (0x107F : Word).extractLsb' 12 4 = 0b0001 ∧ (0x107F : Word).getLsbD 5 = true ∧
    (0x5283 : Word).extractLsb' 12 4 = 0b0101 ∧ (0x5283 : Word).getLsbD 5 = false ∧
    (0x52B0 : Word).extractLsb' 12 4 = 0b0101 ∧ (0x52B0 : Word).getLsbD 5 = true ∧
    (0x947F : Word).extractLsb' 12 4 = 0b1001 := by decide
theorem witness_decode_clauses_control :
    (0x0FFF : Word).extractLsb' 12 4 = 0b0000 ∧ (0xC1C0 : Word).extractLsb' 12 4 = 0b1100 ∧
    (0x4FFF : Word).extractLsb' 12 4 = 0b0100 ∧ (0x4FFF : Word).getLsbD 11 = true ∧
    (0x41C0 : Word).extractLsb' 12 4 = 0b0100 ∧ (0x41C0 : Word).getLsbD 11 = false := by decide
theorem witness_decode_clauses_memory :
    (0x21FF : Word).extractLsb' 12 4 = 0b0010 ∧ (0xA1FF : Word).extractLsb' 12 4 = 0b1010 ∧
    (0x605F : Word).extractLsb' 12 4 = 0b0110 ∧ (0xE1FF : Word).extractLsb' 12 4 = 0b1110 ∧
    (0x31FF : Word).extractLsb' 12 4 = 0b0011 ∧ (0xB5FF : Word).extractLsb' 12 4 = 0b1011 ∧
    (0x747F : Word).extractLsb' 12 4 = 0b0111 := by decide
theorem witness_BranchFollowsTheConditionBits :
    (true = true ∧ (State.reset.setCond .n).cond = .n) ∧
    ¬(true = true ∧ State.reset.cond = .n ∨ true = true ∧ State.reset.cond = .z ∨
      true = true ∧ State.reset.cond = .p) := by decide
theorem witness_LoadPcRelative :
    (0xFE00 : Word) = (State.reset.setPc 0xFE01).pc + BitVec.ofInt 16 (0x1FF : BitVec 9).toInt ∧
    (0xFDFF : Word) = (State.reset.setPc 0xFE00).pc + BitVec.ofInt 16 (0x1FF : BitVec 9).toInt ∧
    (0xFDFF : Word) ≠ State.reset.cfg.kbsrAddr := by decide
theorem witness_LoadIndirect :
    let s := memWrite 0x3000 0x4000 (State.reset.setPc 0x2FFF)
    (0x3000 : Word) = s.pc + BitVec.ofInt 16 (1 : BitVec 9).toInt ∧ memRead 0x3000 s = (0x4000, s) ∧
    memRead 0x4000 s = (0, s) ∧ (0x3000 : Word) ≠ s.cfg.kbsrAddr ∧ s.mem.read 0x3000 ≠ s.cfg.kbsrAddr := by
  decide
theorem witness_LoadBaseOffset :
    (0xFE00 : Word) = (State.reset.setReg .r1 0xFE20).reg .r1 + BitVec.ofInt 16 (0x20 : BitVec 6).toInt ∧
    (0xFE3F : Word) = (State.reset.setReg .r1 0xFE20).reg .r1 + BitVec.ofInt 16 (0x1F : BitVec 6).toInt ∧
    (0xFE3F : Word) ≠ State.reset.cfg.kbsrAddr := by decide
theorem witness_StorePcRelative :
    State.reset.mem.wf ∧ (0x2F00 : Word) = State.reset.pc + BitVec.ofInt 16 (0x100 : BitVec 9).toInt := by decide
theorem witness_StoreIndirect :
    let s := memWrite 0x3001 0x4000 State.reset
    s.mem.wf ∧ (0x3001 : Word) = s.pc + BitVec.ofInt 16 (1 : BitVec 9).toInt ∧
    memRead 0x3001 s = (0x4000, s) ∧ (0x3001 : Word) ≠ s.cfg.kbsrAddr := by decide
theorem witness_StoreBaseOffset :
    State.reset.mem.wf ∧ (0xFFFF : Word) = State.reset.reg .r1 + BitVec.ofInt 16 (0x3F : BitVec 6).toInt := by decide
theorem witness_OrdinaryReadsArePure : (0xFE02 : Word) ≠ State.reset.cfg.kbsrAddr := by decide
theorem witness_WritesArePureStorage : (memWrite 0xFE00 0x1234 State.reset).mem.wf := by decide
theorem witness_StatusReadPollsOnce :
    State.reset.mem.wf ∧ State.reset.cfg.wf ∧ (State.reset.supply [some 0xFF]).coming = some 0xFF :: [] ∧
    (State.reset.setInputCycle [none]).coming = none :: [] ∧ State.reset.coming = [] := by decide
theorem witness_CanonicalMemoriesThatReadAlikeAreEqual :
    Memory.wf [(0, 1), (65535, 2)] ∧ Memory.write (Memory.write [] 65535 2) 0 1 = [(0, 1), (65535, 2)] := by decide
theorem witness_StoredWordIsFetchedByTheNextStep :
    let s := memWrite 0x3001 0x3000 (State.reset.setReg .r1 0x3020)
    s.mem.wf ∧ s.run = .running ∧ s.routine = none ∧ s.pc ≠ s.cfg.kbsrAddr ∧
    s.reg .r1 + BitVec.ofInt 16 (0x20 : BitVec 6).toInt = s.pc ∧
    s.pc + BitVec.ofInt 16 (1 : BitVec 9).toInt ≠ s.cfg.kbsrAddr ∧
    s.mem.read (s.pc + BitVec.ofInt 16 (1 : BitVec 9).toInt) = s.pc := by decide
theorem witness_GetcReadsOneByte_and_InPromptsReadsAndEchoes :
    NextByte (State.reset.supply [none, none, some 0xFF, none]) 0xFF [none] ∧
    NextByte ((State.reset.supply [none]).setInputCycle [some 0, some 1]) 0 [some 1] :=
  ⟨.inl ⟨2, rfl⟩, .inr ⟨fun _ h => List.eq_of_mem_replicate (n := 1) h, 0, rfl⟩⟩
/-- A string state from values a kernel evaluation shows. -/
theorem stringAt_of_eval {s : State} {a : Word} {k : Nat}
    (h1 : (wordsAt s.mem a k).all (fun w => decide (w ≠ 0)) = true) (h2 : s.mem.read (a + BitVec.ofNat 16 k) = 0)
    (h3 : (List.range (k + 1)).all (fun j => decide (a + BitVec.ofNat 16 j ≠ s.cfg.kbsrAddr)) = true) :
    StringAt s a k where
  nonzero w hw := of_decide_eq_true (List.all_eq_true.1 h1 w hw)
  terminated := h2
  plain j hj := of_decide_eq_true (List.all_eq_true.1 h3 j (List.mem_range.2 (Nat.lt_succ_of_le hj)))

theorem witness_PutsPrintsTheString :
    StringAt ((memWrite 0 0x42 (memWrite 0xFFFF 0x41 State.reset)).setReg .r0 0xFFFF) 0xFFFF 2 :=
  stringAt_of_eval (by decide) (by decide) (by decide)
theorem witness_PutspPrintsThePackedString :
    StringAt (State.reset.setReg .r0 0x4000) 0x4000 0 ∧
    StringAt ((memWrite 0x4001 0x006C (memWrite 0x4000 0x6548 State.reset)).setReg .r0 0x4000) 0x4000 2 :=
  ⟨stringAt_of_eval (by decide) (by decide) (by decide), stringAt_of_eval (by decide) (by decide) (by decide)⟩
theorem witness_PutsIsItsLoop_and_PutspIsItsLoop :
    State.reset.run = .running ∧ State.reset.routine = none ∧ State.reset.mem.wf ∧ State.reset.cfg.wf ∧
    (State.reset.setRoutine (some (.puts 0x4000))).routine = some (.puts 0x4000) ∧
    (State.reset.setRoutine (some (.putsp 0x6548 0x4000))).routine = some (.putsp 0x6548 0x4000) := by decide

/-- The word 0x0001 at each of the keys. -/
def ones (keys : List Nat) : Memory := keys.map fun k => (k, 1)

theorem readAt_ones {keys : List Nat} {k : Nat} (h : k ∈ keys) : (ones keys).readAt k = 1 := by
  induction keys with
  | nil => cases h
  | cons x keys ih =>
    simp only [ones, List.map_cons, Memory.readAt]
    split
    · rfl
    · rename_i hx
      exact ih ((List.mem_cons.1 h).resolve_left (Ne.symm hx))

theorem ones_wf : (ones (List.range 65536)).wf := by
  refine ⟨List.Pairwise.map _ (fun _ _ h => h) List.pairwise_lt_range, fun c hc => ?_⟩
  obtain ⟨k, hk, rfl⟩ := List.mem_map.1 hc
  exact ⟨List.mem_range.1 hk, (by decide : (1 : Word) ≠ 0)⟩

theorem witness_EndlessStringsAreNeverCompleted :
    ∃ m : Memory, let s := ((State.reset.setMem m).setInput [some 0x41]).setInputCycle [some 0x42]
    s.run = .running ∧ s.routine = none ∧ s.mem.wf ∧ s.cfg.wf ∧ (∀ a, a ≠ s.cfg.kbsrAddr → s.mem.read a ≠ 0) ∧
    ByteAlways s := by
  have hr : ∀ a, (ones (List.range 65536)).read a ≠ 0 := fun a h =>
    absurd ((readAt_ones (List.mem_range.2 a.isLt)).symm.trans h) (by decide)
  have key : ∀ m : Memory, m.wf → (∀ a, m.read a ≠ 0) →
      let s := ((State.reset.setMem m).setInput [some 0x41]).setInputCycle [some 0x42]
      s.run = .running ∧ s.routine = none ∧ s.mem.wf ∧ s.cfg.wf ∧ (∀ a, a ≠ s.cfg.kbsrAddr → s.mem.read a ≠ 0) ∧
      ByteAlways s :=
    fun m hm hr => ⟨rfl, rfl, hm, (by decide : Config.default.wf), fun a _ => hr a,
      fun x hx => ⟨0x41, List.mem_singleton.1 hx, by decide⟩, List.cons_ne_nil _ _,
      fun x hx => ⟨0x42, List.mem_singleton.1 hx, by decide⟩⟩
  exact ⟨_, key _ ones_wf hr⟩
theorem witness_ReservedOpcodesAndUnknownTrapsFault :
    (0x8FFF : Word).extractLsb' 12 4 = 0b1000 ∧ (0xDFFF : Word).extractLsb' 12 4 = 0b1101 ∧
    (0xF000 : Word).extractLsb' 12 4 = 0b1111 ∧ (0xF000 : Word).extractLsb' 0 8 ∉ Config.default.trapNumbers ∧
    (State.reset.setPc 0).pc = (0xFFFF : Word) + 1 := by decide
theorem witness_TrapRoutinesKeepRegistersAndPc :
    (∃ t, exec .getc State.reset = .next t) ∧ (∃ t, exec .out State.reset = .next t) ∧
    (∃ t, exec .puts State.reset = .next t) ∧ (∃ t, exec .in_ State.reset = .next t) ∧
    (∃ t, exec .putsp State.reset = .next t) ∧ (∃ t, exec .halt State.reset = .next t) :=
  ⟨some_next (by decide), some_next (by decide), some_next (by decide),
    some_next (by decide), some_next (by decide), some_next (by decide)⟩
theorem witness_WaitingForInputEndsWhenAByteComes :
    let s := (State.reset.supply [none, none]).setInputCycle [none]
    s.run = .running ∧ s.routine = none ∧ NoByteEver s :=
  ⟨rfl, rfl, fun _ h => List.eq_of_mem_replicate (n := 2) h, fun _ h => List.eq_of_mem_replicate (n := 1) h⟩
theorem witness_AnInstructionIsOneStep :
    (State.reset.run = .running ∧ State.reset.routine = none ∧ State.reset.mem.wf ∧ State.reset.cfg.wf ∧
      ∃ t, exec .in_ State.reset = .next t ∧ t.routine ≠ none) ∧
    let s := State.reset.setRoutine (some (.puts 0x4000))
    s.run = .running ∧ s.routine = some (.puts 0x4000) ∧ ∃ t, step s = .next t :=
  ⟨⟨rfl, rfl, by decide, by decide, _, next_of_isNext (by decide), by decide⟩, rfl, rfl, some_next (by decide)⟩
theorem witness_FlagsFollowFlaggedWritesOnly :
    (∃ t, exec (.lea .r7 0) State.reset = .next t) ∧ flagDest (.lea .r7 0) = some .r7 ∧
    (∃ t, exec (.jsr 0) State.reset = .next t) ∧ flagDest (.jsr 0) = none :=
  ⟨some_next (by decide), rfl, some_next (by decide), rfl⟩
theorem witness_OnlyBranchReadsTheFlags :
    (∃ t, exec (.not .r0 .r0) State.reset = .next t) ∧ (Instr.not .r0 .r0).opcode ≠ .br ∧
    setsFlags (.not .r0 .r0) = true ∧ (∃ t, exec (.str .r0 .r0 0) State.reset = .next t) ∧
    (Instr.str .r0 .r0 0).opcode ≠ .br ∧ setsFlags (.str .r0 .r0 0) = false :=
  ⟨some_next (by decide), by decide, rfl, some_next (by decide), by decide, rfl⟩
theorem witness_OnlyStoresChangeOrdinaryMemory :
    (∃ t, exec .putsp State.reset = .next t) ∧ isStore .putsp = false :=
  ⟨some_next (by decide), rfl⟩
theorem witness_StreamsAreUsedInOrder :
    (∃ t, exec (.ld .r0 0) (State.reset.setPc 0xFE00) = .next t) ∧ (Instr.ld .r0 0).opcode ≠ .trap :=
  ⟨some_next (by decide), by decide⟩
theorem witness_StepsKeepTheInvariant_and_StepsKeepTheParameters :
    State.reset.Inv ∧ ∃ t, step State.reset = .next t :=
  ⟨⟨by decide, by decide, fun _ h => (by cases h), fun _ => rfl, ⟨Nat.le_refl _, fun _ => rfl⟩, by decide⟩,
    some_next (by decide)⟩
theorem witness_ReachableStatesMeetTheInvariant : Reachable State.reset :=
  .launched Config.default [] State.reset (by decide) rfl
theorem witness_LaunchGivesTheResetState_and_FirstInstructionIsAtPcStart :
    (∃ s, launch Config.default [some [0x30, 0x00, 0xF0, 0x25]] = .next s) ∧
    (∃ s, launch Config.default [] = .next s ∧ s.mem.read Config.default.pcStart = 0) ∧
    Config.default.pcStart ≠ Config.default.kbsrAddr := ⟨⟨_, rfl⟩, ⟨_, rfl, by decide⟩, by decide⟩
theorem witness_LoaderStoresTheImage :
    Memory.wf [] ∧ ImageAccepted [0xFF, 0xFE, 0xBE, 0xEF] ∧ 0 < imageCount [0xFF, 0xFE, 0xBE, 0xEF] ∧
    ImageAccepted [0xFF, 0xFF] :=
  ⟨by decide, ⟨by decide, by decide, by decide⟩, by decide, ⟨by decide, by decide, by decide⟩⟩
theorem witness_LoaderRejectsExactlyBadImages :
    ¬ImageAccepted [0xFF, 0xFF, 0x00, 0x01] ∧ ¬ImageAccepted [0x30] ∧ ¬ImageAccepted [0x30, 0x00, 0x12] :=
  ⟨fun h => h.2.2 (by decide), fun h => absurd h.1 (by decide), fun h => absurd h.2.1 (by decide)⟩
theorem witness_ImagesAreLoadedInOrder :
    loadImages [some [0x30, 0x00]] [] = .ok [] ∧ ∃ e, launch Config.default [none] = .refused (.launchRefused e) :=
  ⟨rfl, _, rfl⟩

end Sys2Proof.Tests
end

section
namespace Sys2Proof.Machine

/-! ## 20_memory.md: memory reads and writes -/

/-- Settles O29: away from `KBSR_ADDR`, `MemRead` takes its pure case (R32); `KBDR_ADDR` is no exception (R34). -/
theorem ordinaryReadsArePure : Obligations.OrdinaryReadsArePure :=
  fun _ _ notStatus => memRead_pure notStatus

end Sys2Proof.Machine
end

section
namespace Sys2Proof

/-! ## 41_operate.md: ADD, AND and NOT -/

/-! ### The words of the operate instructions (R63) -/

/-- The mode bit of an ADD word chooses between its two forms (R91, R92). -/
theorem decode_of_opcode_add (c : Config) {ir : Word} (hop : Field.opcode ir = Opcode.add.toBits) :
    decode c ir = if Field.mode ir then .addImm (Field.dr ir) (Field.baseR ir) (Field.imm5 ir)
      else .addReg (Field.dr ir) (Field.baseR ir) (Field.sr2 ir) := by
  simp only [decode, opcode_of_bits hop]

/-- The mode bit of an AND word chooses between its two forms (R93, R94). -/
theorem decode_of_opcode_and (c : Config) {ir : Word} (hop : Field.opcode ir = Opcode.and.toBits) :
    decode c ir = if Field.mode ir then .andImm (Field.dr ir) (Field.baseR ir) (Field.imm5 ir)
      else .andReg (Field.dr ir) (Field.baseR ir) (Field.sr2 ir) := by
  simp only [decode, opcode_of_bits hop]

/-- NOT has one form; bits 5 to 0 are not examined (R95). -/
theorem decode_of_opcode_not (c : Config) {ir : Word} (hop : Field.opcode ir = Opcode.not.toBits) :
    decode c ir = .not (Field.dr ir) (Field.baseR ir) := by
  simp only [decode, opcode_of_bits hop]

end Sys2Proof

namespace Sys2Proof.Machine

/-! ### What a flagged write does beside the value it writes (R16, R17) -/

/-- `setcc` stores the one flag that R16 gives the value. -/
theorem isFlagOf_ofWord (v : Word) : IsFlagOf v (Cond.ofWord v) := by
  have zero_iff : v = 0 ↔ v.toNat = 0 := BitVec.toNat_eq
  have sign : v.msb = decide (0x8000 ≤ v.toNat) := BitVec.msb_eq_decide v
  refine ⟨fun h => ?zero, fun hlow hhigh => ?positive, fun h => ?negative⟩
  case zero => rw [Cond.ofWord, if_pos (zero_iff.2 h)]
  case positive =>
    rw [Cond.ofWord, if_neg (by rw [zero_iff]; omega), sign, decide_eq_false (by omega), if_neg Bool.false_ne_true]
  case negative => rw [Cond.ofWord, if_neg (by rw [zero_iff]; omega), sign, decide_eq_true h, if_pos rfl]

theorem State.writeFlagged_regsKeptBut (s : State) (dr : Reg) (v : Word) :
    RegsKeptBut [dr] s (s.writeFlagged dr v) :=
  fun _ hr => s.writeFlagged_reg_other v (List.ne_of_not_mem_cons hr)

theorem State.writeFlagged_systemKept (s : State) (dr : Reg) (v : Word) : SystemKept s (s.writeFlagged dr v) where
  memory _ := by rw [writeFlagged_mem]
  control := ⟨s.writeFlagged_run dr v, s.writeFlagged_fault dr v, s.writeFlagged_routine dr v, s.writeFlagged_cfg dr v⟩
  input := ⟨s.writeFlagged_input dr v, s.writeFlagged_inputCycle dr v, s.writeFlagged_consumed dr v⟩
  output := ⟨s.writeFlagged_output dr v, s.writeFlagged_flushed dr v⟩

/-- The flag and the frame that every operate instruction shares: `DR` and `cond` are all that changes. -/
theorem State.writeFlagged_flag_and_frame (s : State) (dr : Reg) (v : Word) :
    IsFlagOf ((s.writeFlagged dr v).reg dr) (s.writeFlagged dr v).cond ∧ RegsKeptBut [dr] s (s.writeFlagged dr v) ∧
      (s.writeFlagged dr v).pc = s.pc ∧ SystemKept s (s.writeFlagged dr v) := by
  refine ⟨?_, s.writeFlagged_regsKeptBut dr v, s.writeFlagged_pc dr v, s.writeFlagged_systemKept dr v⟩
  rw [writeFlagged_reg_same, writeFlagged_cond]
  exact isFlagOf_ofWord v

/-! ### The operate instructions as flagged writes (R91 to R95) -/

theorem exec_addReg (dr sr1 sr2 : Reg) (s : State) :
    exec (.addReg dr sr1 sr2) s = .next (s.writeFlagged dr (add16 (s.reg sr1) (s.reg sr2))) := rfl

theorem exec_addImm (dr sr1 : Reg) (imm5 : BitVec 5) (s : State) :
    exec (.addImm dr sr1 imm5) s = .next (s.writeFlagged dr (add16 (s.reg sr1) (sext5 imm5))) := rfl

theorem exec_andReg (dr sr1 sr2 : Reg) (s : State) :
    exec (.andReg dr sr1 sr2) s = .next (s.writeFlagged dr (s.reg sr1 &&& s.reg sr2)) := rfl

theorem exec_andImm (dr sr1 : Reg) (imm5 : BitVec 5) (s : State) :
    exec (.andImm dr sr1 imm5) s = .next (s.writeFlagged dr (s.reg sr1 &&& sext5 imm5)) := rfl

theorem exec_not (dr sr : Reg) (s : State) : exec (.not dr sr) s = .next (s.writeFlagged dr (~~~ s.reg sr)) := rfl

/-! ### The values written (R64, R90) -/

/-- `add16` is addition modulo 2^16 (R90). -/
theorem add16_toNat (a b : Word) : (add16 a b).toNat = (a.toNat + b.toNat) % 65536 := BitVec.toNat_add a b

/-- Adding the sign extension of a field of any width adds its two's-complement value, modulo 2^16 (R64, R90). -/
theorem add16_signExtend_toNat {n : Nat} (a : Word) (v : BitVec n) :
    ((add16 a (v.signExtend 16)).toNat : Int) = (a.toNat + v.toInt) % 65536 := by
  have extended : ((v.signExtend 16).toNat : Int) = v.toInt % 65536 := by
    rw [BitVec.signExtend, BitVec.toNat_ofInt]
    omega
  rw [add16_toNat]
  omega

/-- Bits 4 to 0 of `sext_5` are the field's, and those above are its bit 4 (R64). -/
theorem sext5_getLsbD (v : BitVec 5) {k : Nat} (hk : k < 16) : (sext5 v).getLsbD k = v.getLsbD (min k 4) := by
  rw [sext5, BitVec.getLsbD_signExtend, decide_eq_true hk, Bool.true_and]
  split
  case isTrue hfield => rw [Nat.min_eq_left (by omega)]
  case isFalse habove => rw [Nat.min_eq_right (by omega), BitVec.msb_eq_getLsbD_last]

/-! ### The obligations -/

/-- Settles O13: the sum of the sources read before the write is one flagged write (R91). -/
theorem addRegisterForm : Obligations.AddRegisterForm := by
  refine ⟨fun c ir hop hmode => (decode_of_opcode_add c hop).trans (if_neg (Bool.eq_false_iff.mp hmode)),
    fun dr sr1 sr2 s => ⟨_, exec_addReg dr sr1 sr2 s, ?sum, s.writeFlagged_flag_and_frame dr _⟩⟩
  case sum => rw [State.writeFlagged_reg_same, add16_toNat]

/-- Settles O14: the immediate is added as its sign extension, which has its two's-complement value (R92). -/
theorem addImmediateForm : Obligations.AddImmediateForm := by
  refine ⟨fun c ir hop hmode => (decode_of_opcode_add c hop).trans (if_pos hmode),
    fun dr sr1 imm5 s => ⟨_, exec_addImm dr sr1 imm5 s, ?sum, s.writeFlagged_flag_and_frame dr _⟩⟩
  case sum => rw [State.writeFlagged_reg_same, sext5, add16_signExtend_toNat]

/-- Settles O15: the bitwise AND of the sources read before the write is one flagged write (R93). -/
theorem andRegisterForm : Obligations.AndRegisterForm := by
  refine ⟨fun c ir hop hmode => (decode_of_opcode_and c hop).trans (if_neg (Bool.eq_false_iff.mp hmode)),
    fun dr sr1 sr2 s => ⟨_, exec_andReg dr sr1 sr2 s, fun k => ?bits, s.writeFlagged_flag_and_frame dr _⟩⟩
  case bits => rw [State.writeFlagged_reg_same, BitVec.getLsbD_and]

/-- Settles O16: the AND meets the immediate's sign extension, whose upper bits are copies of bit 4 (R94). -/
theorem andImmediateForm : Obligations.AndImmediateForm := by
  refine ⟨fun c ir hop hmode => (decode_of_opcode_and c hop).trans (if_pos hmode),
    fun dr sr1 imm5 s => ⟨_, exec_andImm dr sr1 imm5 s, fun k hk => ?bits, s.writeFlagged_flag_and_frame dr _⟩⟩
  case bits => rw [State.writeFlagged_reg_same, BitVec.getLsbD_and, sext5_getLsbD imm5 hk]

/-- Settles O17: the complement of the source read before the write is one flagged write (R95). -/
theorem notComplementsTheSource : Obligations.NotComplementsTheSource := by
  refine ⟨fun c ir hop => decode_of_opcode_not c hop,
    fun dr sr s => ⟨_, exec_not dr sr s, ?complement, s.writeFlagged_flag_and_frame dr _⟩⟩
  case complement => exact (congrArg BitVec.toNat (s.writeFlagged_reg_same dr _)).trans BitVec.toNat_not

end Sys2Proof.Machine
end

section
namespace Sys2Proof

/-! ## 42_control.md: BR, JMP, JSR and JSRR -/

/-! ### The words of the control instructions (R63) -/

/-- BR has one form: its condition bits and its offset are all the other bits (R100). -/
theorem decode_of_opcode_br (c : Config) {ir : Word} (hop : Field.opcode ir = Opcode.br.toBits) :
    decode c ir = .br (Field.bit11 ir) (Field.bit10 ir) (Field.bit9 ir) (Field.pcOffset9 ir) := by
  simp only [decode, opcode_of_bits hop]

/-- JMP has one form; bits 11 to 9 and 5 to 0 are not examined (R101). -/
theorem decode_of_opcode_jmp (c : Config) {ir : Word} (hop : Field.opcode ir = Opcode.jmp.toBits) :
    decode c ir = .jmp (Field.baseR ir) := by
  simp only [decode, opcode_of_bits hop]

/-- Bit 11 of a word with opcode 0100 chooses between JSR and JSRR (R102, R103). -/
theorem decode_of_opcode_jsr (c : Config) {ir : Word} (hop : Field.opcode ir = Opcode.jsr.toBits) :
    decode c ir = if Field.bit11 ir then .jsr (Field.pcOffset11 ir) else .jsrr (Field.baseR ir) := by
  simp only [decode, opcode_of_bits hop]

end Sys2Proof

namespace Sys2Proof.Machine

/-! ### What a jump and a call leave unchanged -/

theorem SystemKept.trans {s t u : State} (first : SystemKept s t) (second : SystemKept t u) : SystemKept s u where
  memory a := (second.memory a).trans (first.memory a)
  control := ⟨second.control.run.trans first.control.run, second.control.fault.trans first.control.fault,
    second.control.routine.trans first.control.routine, second.control.cfg.trans first.control.cfg⟩
  input := ⟨second.input.input.trans first.input.input, second.input.inputCycle.trans first.input.inputCycle,
    second.input.consumed.trans first.input.consumed⟩
  output := ⟨second.output.output.trans first.output.output, second.output.flushed.trans first.output.flushed⟩

theorem State.setPc_systemKept (s : State) (a : Word) : SystemKept s (s.setPc a) where
  memory _ := by rw [setPc_mem]
  control := ⟨s.setPc_run a, s.setPc_fault a, s.setPc_routine a, s.setPc_cfg a⟩
  input := ⟨s.setPc_input a, s.setPc_inputCycle a, s.setPc_consumed a⟩
  output := ⟨s.setPc_output a, s.setPc_flushed a⟩

theorem State.setReg_systemKept (s : State) (r : Reg) (v : Word) : SystemKept s (s.setReg r v) where
  memory _ := by rw [setReg_mem]
  control := ⟨s.setReg_run r v, s.setReg_fault r v, s.setReg_routine r v, s.setReg_cfg r v⟩
  input := ⟨s.setReg_input r v, s.setReg_inputCycle r v, s.setReg_consumed r v⟩
  output := ⟨s.setReg_output r v, s.setReg_flushed r v⟩

/-- The frame that BR and JMP share: `pc` is all that changes. -/
theorem State.setPc_frame (s : State) (a : Word) :
    RegsKeptBut [] s (s.setPc a) ∧ (s.setPc a).cond = s.cond ∧ SystemKept s (s.setPc a) :=
  ⟨fun r _ => s.setPc_reg a r, s.setPc_cond a, s.setPc_systemKept a⟩

/-- The frame that JSR and JSRR share, `r` being R7: the link register and `pc` are all that changes. -/
theorem State.setReg_setPc_frame (s : State) (r : Reg) (link target : Word) :
    RegsKeptBut [r] s ((s.setReg r link).setPc target) ∧ ((s.setReg r link).setPc target).cond = s.cond ∧
      SystemKept s ((s.setReg r link).setPc target) := by
  refine ⟨fun q hq => ?others, ?flag, (s.setReg_systemKept r link).trans (State.setPc_systemKept _ target)⟩
  case others => rw [setPc_reg, s.setReg_reg_other link (List.ne_of_not_mem_cons hq)]
  case flag => rw [setPc_cond, setReg_cond]

/-! ### The control instructions as updates of `pc` and the link (R100 to R103) -/

/-- A branch not taken sets `pc` to what it is, so BR is one update of `pc` either way. -/
theorem exec_br (n z p : Bool) (off : BitVec 9) (s : State) :
    exec (.br n z p off) s = .next (s.setPc (if branchTaken n z p s.cond then pcRelative9 s off else s.pc)) := by
  rw [exec, execBr]
  split <;> rfl

theorem exec_jmp (baseR : Reg) (s : State) : exec (.jmp baseR) s = .next (s.setPc (s.reg baseR)) := rfl

theorem exec_jsr (off : BitVec 11) (s : State) :
    exec (.jsr off) s = .next ((s.setReg .r7 s.pc).setPc (pcRelative11 s off)) := rfl

theorem exec_jsrr (baseR : Reg) (s : State) :
    exec (.jsrr baseR) s = .next ((s.setReg .r7 s.pc).setPc ((s.setReg .r7 s.pc).reg baseR)) := rfl

/-! ### When a branch is taken (R100) -/

/-- `n` pairs with N, `z` with Z and `p` with P; with no flag set no bit pairs. -/
theorem branchTaken_iff (n z p : Bool) (c : Cond) :
    branchTaken n z p c = true ↔ n = true ∧ c = .n ∨ z = true ∧ c = .z ∨ p = true ∧ c = .p := by
  -- For each flag the mask leaves the one bit that pairs with it: a fact about three Booleans.
  cases c <;> revert n z p <;> decide

/-! ### The obligations -/

/-- Settles O18: BR sets `pc` to the target chosen by the pairing of its bits with the flags (R100). -/
theorem branchFollowsTheConditionBits : Obligations.BranchFollowsTheConditionBits := by
  refine ⟨fun c ir hop => decode_of_opcode_br c hop,
    fun n z p off s => ⟨_, exec_br n z p off s, fun paired => ?taken, fun unpaired => ?notTaken, s.setPc_frame _⟩⟩
  case taken =>
    rw [State.setPc_pc, if_pos ((branchTaken_iff n z p s.cond).mpr paired), pcRelative9, sext9, add16_signExtend_toNat]
  case notTaken => rw [State.setPc_pc, if_neg (mt (branchTaken_iff n z p s.cond).mp unpaired)]

/-- Settles O19: JMP is one update of `pc`, with the base register's value (R101). -/
theorem jumpGoesToTheRegister : Obligations.JumpGoesToTheRegister :=
  ⟨fun c _ hop => decode_of_opcode_jmp c hop,
    fun baseR s => ⟨_, exec_jmp baseR s, s.setPc_pc _, s.setPc_frame _⟩⟩

/-- Settles O20: the target is computed from the `pc` that is also the link (R102). -/
theorem callLinksAndGoesToTheOffset : Obligations.CallLinksAndGoesToTheOffset := by
  refine ⟨fun c ir hop hlong => (decode_of_opcode_jsr c hop).trans (if_pos hlong),
    fun off s => ⟨_, exec_jsr off s, ?link, ?target, s.setReg_setPc_frame .r7 _ _⟩⟩
  case link => rw [State.setPc_reg, State.setReg_reg_same]
  case target => rw [State.setPc_pc, pcRelative11, sext11, add16_signExtend_toNat]

/-- Settles O21: the base is read after the link is written, which matters for base R7 alone (R103). -/
theorem callThroughRegisterReadsAfterTheLink : Obligations.CallThroughRegisterReadsAfterTheLink := by
  refine ⟨fun c ir hop hshort => (decode_of_opcode_jsr c hop).trans (if_neg (Bool.eq_false_iff.mp hshort)),
    fun baseR s => ⟨_, exec_jsrr baseR s, ?link, fun isLink => ?baseIsLink, fun notLink => ?otherBase,
      s.setReg_setPc_frame .r7 _ _⟩⟩
  case link => rw [State.setPc_reg, State.setReg_reg_same]
  case baseIsLink => rw [State.setPc_pc, isLink, State.setReg_reg_same]
  case otherBase => rw [State.setPc_pc, s.setReg_reg_other s.pc notLink]

end Sys2Proof.Machine
end

section
namespace Sys2Proof

/-! ## 43_loads.md: LD, LDI, LDR and LEA -/

/-! ### The words of the load instructions (R63) -/

/-- LD has one form: `DR` and the offset are all the bits below its opcode (R110). -/
theorem decode_of_opcode_ld (c : Config) {ir : Word} (hop : Field.opcode ir = Opcode.ld.toBits) :
    decode c ir = .ld (Field.dr ir) (Field.pcOffset9 ir) := by
  simp only [decode, opcode_of_bits hop]

/-- LDI has the fields of LD (R111). -/
theorem decode_of_opcode_ldi (c : Config) {ir : Word} (hop : Field.opcode ir = Opcode.ldi.toBits) :
    decode c ir = .ldi (Field.dr ir) (Field.pcOffset9 ir) := by
  simp only [decode, opcode_of_bits hop]

/-- LDR has one form, with a base register and a shorter offset (R112). -/
theorem decode_of_opcode_ldr (c : Config) {ir : Word} (hop : Field.opcode ir = Opcode.ldr.toBits) :
    decode c ir = .ldr (Field.dr ir) (Field.baseR ir) (Field.offset6 ir) := by
  simp only [decode, opcode_of_bits hop]

/-- LEA has the fields of LD (R113). -/
theorem decode_of_opcode_lea (c : Config) {ir : Word} (hop : Field.opcode ir = Opcode.lea.toBits) :
    decode c ir = .lea (Field.dr ir) (Field.pcOffset9 ir) := by
  simp only [decode, opcode_of_bits hop]

end Sys2Proof

namespace Sys2Proof.Machine

/-! ### What a read and a load leave unchanged -/

theorem ControlKept.trans {s t u : State} (first : ControlKept s t) (second : ControlKept t u) : ControlKept s u :=
  ⟨second.run.trans first.run, second.fault.trans first.fault, second.routine.trans first.routine,
    second.cfg.trans first.cfg⟩

theorem OutputKept.trans {s t u : State} (first : OutputKept s t) (second : OutputKept t u) : OutputKept s u :=
  ⟨second.output.trans first.output, second.flushed.trans first.flushed⟩

/-- What reads of memory and flagged writes of the registers `ds` leave unchanged, polls included. It leaves open the
flags, the host's answers and the two keyboard cells. -/
def LoadFrame (ds : List Reg) (s t : State) : Prop :=
  MemoryKeptButKeyboard s t ∧ RegsKeptBut ds s t ∧ t.pc = s.pc ∧ ControlKept s t ∧ OutputKept s t

theorem LoadFrame.trans {ds : List Reg} {s t u : State} (first : LoadFrame ds s t) (second : LoadFrame ds t u) :
    LoadFrame ds s u := by
  obtain ⟨memory, regs, pc, control, output⟩ := first
  obtain ⟨memory', regs', pc', control', output'⟩ := second
  refine ⟨fun a notStatus notData => ?otherCells, fun r hr => (regs' r hr).trans (regs r hr), pc'.trans pc,
    control.trans control', output.trans output'⟩
  case otherCells =>
    -- The parameters are kept, so the second frame excepts the same two keyboard cells as the first.
    exact (memory' a (control.cfg ▸ notStatus) (control.cfg ▸ notData)).trans (memory a notStatus notData)

theorem memRead_loadFrame (ds : List Reg) (a : Word) (s : State) : LoadFrame ds s (memRead a s).2 :=
  ⟨fun _ => memRead_mem_other a s, fun r _ => memRead_reg a s r, memRead_pc a s,
    ⟨memRead_run a s, memRead_fault a s, memRead_routine a s, memRead_cfg a s⟩,
    ⟨memRead_output a s, memRead_flushed a s⟩⟩

theorem State.writeFlagged_loadFrame (s : State) (dr : Reg) (v : Word) : LoadFrame [dr] s (s.writeFlagged dr v) := by
  obtain ⟨memory, control, -, output⟩ := s.writeFlagged_systemKept dr v
  exact ⟨fun a _ _ => memory a, s.writeFlagged_regsKeptBut dr v, s.writeFlagged_pc dr v, control, output⟩

/-! ### The load that LD, LDI and LDR share -/

/-- Away from `KBSR_ADDR` a load is a flagged write of the memory word, with no side effect (R32). -/
theorem loadInto_plain (dr : Reg) {ea : Word} {s : State} (notStatus : ea ≠ s.cfg.kbsrAddr) :
    loadInto dr ea s = s.writeFlagged dr (s.mem.read ea) := by
  rw [loadInto, memRead_pure notStatus]

theorem loadInto_loadFrame (dr : Reg) (ea : Word) (s : State) : LoadFrame [dr] s (loadInto dr ea s) :=
  (memRead_loadFrame [dr] ea s).trans (State.writeFlagged_loadFrame _ dr _)

/-- The word, the flag and the side effect of one load are those of its one `MemRead` (R32, R33). -/
theorem loadInto_effect (dr : Reg) (ea : Word) (s : State) :
    (loadInto dr ea s).reg dr = (memRead ea s).1 ∧ IsFlagOf ((loadInto dr ea s).reg dr) (loadInto dr ea s).cond ∧
      (loadInto dr ea s).mem = (memRead ea s).2.mem ∧ InputKept (memRead ea s).2 (loadInto dr ea s) ∧
      (ea ≠ s.cfg.kbsrAddr → (loadInto dr ea s).reg dr = s.mem.read ea ∧ MemoryKept s (loadInto dr ea s) ∧
        InputKept s (loadInto dr ea s)) ∧
      LoadFrame [dr] s (loadInto dr ea s) := by
  obtain ⟨flag, -, -, written⟩ := (memRead ea s).2.writeFlagged_flag_and_frame dr (memRead ea s).1
  refine ⟨State.writeFlagged_reg_same _ dr _, flag, State.writeFlagged_mem _ dr _, written.input,
    fun notStatus => ?plain, loadInto_loadFrame dr ea s⟩
  case plain =>
    rw [loadInto_plain dr notStatus]
    obtain ⟨memory, -, input, -⟩ := s.writeFlagged_systemKept dr (s.mem.read ea)
    exact ⟨s.writeFlagged_reg_same dr _, memory, input⟩

/-! ### The load instructions as loads and flagged writes (R110 to R113) -/

theorem exec_ld (dr : Reg) (off : BitVec 9) (s : State) :
    exec (.ld dr off) s = .next (loadInto dr (pcRelative9 s off) s) := rfl

theorem exec_ldi (dr : Reg) (off : BitVec 9) (s : State) :
    exec (.ldi dr off) s =
      .next (loadInto dr (memRead (pcRelative9 s off) s).1 (memRead (pcRelative9 s off) s).2) := rfl

theorem exec_ldr (dr baseR : Reg) (off : BitVec 6) (s : State) :
    exec (.ldr dr baseR off) s = .next (loadInto dr (baseOffset6 s baseR off) s) := rfl

theorem exec_lea (dr : Reg) (off : BitVec 9) (s : State) :
    exec (.lea dr off) s = .next (s.writeFlagged dr (pcRelative9 s off)) := rfl

/-! ### The addresses read (R64) -/

theorem pcRelative9_eq (s : State) (off : BitVec 9) : pcRelative9 s off = s.pc + BitVec.ofInt 16 off.toInt := by
  rw [pcRelative9, add16, sext9, BitVec.signExtend]

theorem baseOffset6_eq (s : State) (baseR : Reg) (off : BitVec 6) :
    baseOffset6 s baseR off = s.reg baseR + BitVec.ofInt 16 off.toInt := by
  rw [baseOffset6, add16, sext6, BitVec.signExtend]

/-! ### The obligations -/

/-- Settles O22: LD is one load from its `pc`-relative address (R110). -/
theorem loadPcRelative : Obligations.LoadPcRelative := by
  refine ⟨fun c ir hop => decode_of_opcode_ld c hop, fun dr off s ea hea => ⟨_, exec_ld dr off s, ?effect⟩⟩
  case effect =>
    rw [pcRelative9_eq, ← hea]
    exact loadInto_effect dr ea s

/-- Settles O23: LDI is one load in the state that the read of the pointer leaves (R111). -/
theorem loadIndirect : Obligations.LoadIndirect := by
  refine ⟨fun c ir hop => decode_of_opcode_ldi c hop,
    fun dr off s s1 s2 pa ea v hpa hpointer hdata => ⟨loadInto dr ea s1, ?runs, ?effect⟩⟩
  case runs => rw [exec_ldi, pcRelative9_eq, ← hpa, hpointer]
  case effect =>
    obtain ⟨value, flag, memory, input, plain, dataFrame⟩ := loadInto_effect dr ea s1
    have pointerFrame : LoadFrame [dr] s s1 := by simpa only [hpointer] using memRead_loadFrame [dr] pa s
    rw [value] at flag
    rw [hdata] at value flag memory input
    refine ⟨value, flag, memory, input, fun notStatus pointsElsewhere => ?plain, pointerFrame.trans dataFrame⟩
    case plain =>
      obtain ⟨rfl, rfl⟩ : s.mem.read pa = ea ∧ s = s1 :=
        Prod.mk.inj ((memRead_pure notStatus).symm.trans hpointer)
      exact plain pointsElsewhere

/-- Settles O24: LDR is one load, whose address holds the base register's value from before the write of `DR` (R112). -/
theorem loadBaseOffset : Obligations.LoadBaseOffset := by
  refine ⟨fun c ir hop => decode_of_opcode_ldr c hop,
    fun dr baseR off s ea hea => ⟨_, exec_ldr dr baseR off s, ?effect⟩⟩
  case effect =>
    rw [baseOffset6_eq, ← hea]
    exact loadInto_effect dr ea s

/-- Settles O25: LEA is one flagged write of the `pc`-relative address; no `MemRead`, so no poll (R113). -/
theorem loadEffectiveAddress : Obligations.LoadEffectiveAddress := by
  refine ⟨fun c ir hop => decode_of_opcode_lea c hop,
    fun dr off s => ⟨_, exec_lea dr off s, ?address, s.writeFlagged_flag_and_frame dr _⟩⟩
  case address => rw [State.writeFlagged_reg_same, pcRelative9, sext9, add16_signExtend_toNat]

end Sys2Proof.Machine
end

section
namespace Sys2Proof

/-! ## 44_stores.md: ST, STI and STR -/

/-! ### The words of the store instructions (R63) -/

/-- ST has one form: `SR`, where a load has `DR`, and the offset are all the bits below its opcode (R120). -/
theorem decode_of_opcode_st (c : Config) {ir : Word} (hop : Field.opcode ir = Opcode.st.toBits) :
    decode c ir = .st (Field.dr ir) (Field.pcOffset9 ir) := by
  simp only [decode, opcode_of_bits hop]

/-- STI has the fields of ST (R121). -/
theorem decode_of_opcode_sti (c : Config) {ir : Word} (hop : Field.opcode ir = Opcode.sti.toBits) :
    decode c ir = .sti (Field.dr ir) (Field.pcOffset9 ir) := by
  simp only [decode, opcode_of_bits hop]

/-- STR has one form, with a base register and a shorter offset (R122). -/
theorem decode_of_opcode_str (c : Config) {ir : Word} (hop : Field.opcode ir = Opcode.str.toBits) :
    decode c ir = .str (Field.dr ir) (Field.baseR ir) (Field.offset6 ir) := by
  simp only [decode, opcode_of_bits hop]

end Sys2Proof

namespace Sys2Proof.Machine

/-! ### The store that ST, STI and STR share (R35) -/

/-- One word of a canonical memory is all that a store changes, at the device addresses too. -/
theorem memWrite_effect {s : State} (canonical : s.mem.wf) (a v : Word) :
    (memWrite a v s).mem.read a = v ∧ MemoryKeptBut a s (memWrite a v s) ∧ RegsKeptBut [] s (memWrite a v s) ∧
      (memWrite a v s).cond = s.cond ∧ (memWrite a v s).pc = s.pc ∧ ControlKept s (memWrite a v s) ∧
      InputKept s (memWrite a v s) ∧ OutputKept s (memWrite a v s) :=
  ⟨Memory.read_write_same canonical a v, fun _ other => Memory.read_write_other s.mem v other,
    fun r _ => memWrite_reg a v s r, memWrite_cond a v s, memWrite_pc a v s,
    ⟨memWrite_run a v s, memWrite_fault a v s, memWrite_routine a v s, memWrite_cfg a v s⟩,
    ⟨memWrite_input a v s, memWrite_inputCycle a v s, memWrite_consumed a v s⟩,
    ⟨memWrite_output a v s, memWrite_flushed a v s⟩⟩

/-! ### The store instructions as stores (R120 to R122) -/

theorem exec_st (sr : Reg) (off : BitVec 9) (s : State) :
    exec (.st sr off) s = .next (memWrite (pcRelative9 s off) (s.reg sr) s) := rfl

/-- The read of the pointer keeps the registers, so STI stores what `SR` held before it. -/
theorem exec_sti (sr : Reg) (off : BitVec 9) (s : State) :
    exec (.sti sr off) s =
      .next (memWrite (memRead (pcRelative9 s off) s).1 (s.reg sr) (memRead (pcRelative9 s off) s).2) := by
  simp only [exec, execSti, memRead_reg]

theorem exec_str (sr baseR : Reg) (off : BitVec 6) (s : State) :
    exec (.str sr baseR off) s = .next (memWrite (baseOffset6 s baseR off) (s.reg sr) s) := rfl

/-! ### The obligations -/

/-- Settles O26: ST is one store to its `pc`-relative address (R120). -/
theorem storePcRelative : Obligations.StorePcRelative := by
  refine ⟨fun c ir hop => decode_of_opcode_st c hop,
    fun sr off s ea canonical hea => ⟨_, exec_st sr off s, ?effect⟩⟩
  case effect =>
    rw [pcRelative9_eq, ← hea]
    exact memWrite_effect canonical ea (s.reg sr)

/-- Settles O27: STI is one store in the state that the read of the pointer leaves, which is canonical again (R121). -/
theorem storeIndirect : Obligations.StoreIndirect := by
  refine ⟨fun c ir hop => decode_of_opcode_sti c hop,
    fun sr off s s1 pa ea canonical hpa hpointer => ⟨memWrite ea (s.reg sr) s1, ?runs, ?effect⟩⟩
  case runs => rw [exec_sti, pcRelative9_eq, ← hpa, hpointer]
  case effect =>
    obtain ⟨rfl, rfl⟩ : (memRead pa s).1 = ea ∧ (memRead pa s).2 = s1 := Prod.mk.inj hpointer
    obtain ⟨-, regs, pc, control, output⟩ := memRead_loadFrame [] pa s
    obtain ⟨word, memory, regs', cond', pc', control', input, output'⟩ :=
      memWrite_effect (memRead_wf pa canonical) (memRead pa s).1 (s.reg sr)
    refine ⟨word, memory, fun notStatus => ?plain, input, fun r hr => (regs' r hr).trans (regs r hr),
      cond'.trans (memRead_cond pa s), pc'.trans pc, control.trans control', output.trans output'⟩
    case plain =>
      rw [memRead_pure notStatus] at memory input ⊢
      exact ⟨rfl, memory, input⟩

/-- Settles O28: STR is one store; the address and the word are both read before it, so `SR` may be `BaseR` (R122). -/
theorem storeBaseOffset : Obligations.StoreBaseOffset := by
  refine ⟨fun c ir hop => decode_of_opcode_str c hop,
    fun sr baseR off s ea canonical hea => ⟨_, exec_str sr baseR off s, ?effect⟩⟩
  case effect =>
    rw [baseOffset6_eq, ← hea]
    exact memWrite_effect canonical ea (s.reg sr)

end Sys2Proof.Machine
end

section
namespace Sys2Proof

/-! ## 45_trap.md and 46_reserved.md: OUT, unknown trap codes, RTI and RES -/

/-! ### The words of the trap and reserved instructions (R63) -/

/-- RTI is its opcode alone; bits 11 to 0 are not examined (R150). -/
theorem decode_of_opcode_rti (c : Config) {ir : Word} (hop : Field.opcode ir = Opcode.rti.toBits) :
    decode c ir = .rti := by
  simp only [decode, opcode_of_bits hop]

/-- RES is its opcode alone, as RTI is (R151). -/
theorem decode_of_opcode_res (c : Config) {ir : Word} (hop : Field.opcode ir = Opcode.res.toBits) :
    decode c ir = .res := by
  simp only [decode, opcode_of_bits hop]

/-- A TRAP word is dispatched on its code; bits 11 to 8 are not examined (R130). -/
theorem decode_of_opcode_trap (c : Config) {ir : Word} (hop : Field.opcode ir = Opcode.trap.toBits) :
    decode c ir = decodeTrap c (Field.trapvect8 ir) := by
  simp only [decode, opcode_of_bits hop]

/-- A code that is none of the six trap numbers falls through to the catch-all row (R137). -/
theorem decodeTrap_of_not_mem {c : Config} {code : Byte} (unknown : code ∉ c.trapNumbers) :
    decodeTrap c code = .trap code := by
  simp only [Config.trapNumbers, List.mem_cons, List.not_mem_nil, or_false, not_or] at unknown
  obtain ⟨notGetc, notOut, notPuts, notIn, notPutsp, notHalt⟩ := unknown
  rw [decodeTrap, if_neg notGetc, if_neg notOut, if_neg notPuts, if_neg notIn, if_neg notPutsp, if_neg notHalt]

end Sys2Proof

namespace Sys2Proof.Machine

/-! ### What printing a byte and entering a fault do -/

/-- The lower half of a word is its value modulo 256 (R31). -/
theorem lowByte_toNat (w : Word) : (lowByte w).toNat = w.toNat % 256 := by
  rw [lowByte, BitVec.extractLsb'_toNat, Nat.shiftRight_zero]

/-- The frame of `Out`: the output is all that changes (R139). -/
theorem State.out_frame (s : State) (b : Byte) :
    (s.out b).flushed = s.flushed ∧ RegsKeptBut [] s (s.out b) ∧ (s.out b).cond = s.cond ∧ (s.out b).pc = s.pc ∧
      MemoryKept s (s.out b) ∧ ControlKept s (s.out b) ∧ InputKept s (s.out b) :=
  ⟨s.out_flushed b, fun r _ => s.out_reg b r, s.out_cond b, s.out_pc b, fun _ => by rw [out_mem],
    ⟨s.out_run b, s.out_fault b, s.out_routine b, s.out_cfg b⟩,
    ⟨s.out_input b, s.out_inputCycle b, s.out_consumed b⟩⟩

/-- The run state and the record are all that a fault changes; the record names the address before the incremented
`pc` (R161, R162). -/
theorem raiseFault_effect (cause : FaultCause) {s : State} {a : Word} (incremented : s.pc = a + 1) :
    (raiseFault cause s).run = .faulted ∧ (raiseFault cause s).fault = some ⟨cause, a⟩ ∧
      RegsKeptBut [] s (raiseFault cause s) ∧ (raiseFault cause s).cond = s.cond ∧ (raiseFault cause s).pc = s.pc ∧
      MemoryKept s (raiseFault cause s) ∧ InputKept s (raiseFault cause s) ∧ OutputKept s (raiseFault cause s) ∧
      (raiseFault cause s).routine = s.routine ∧ (raiseFault cause s).cfg = s.cfg := by
  rw [raiseFault_eq]
  refine ⟨rfl, ?record, fun _ _ => rfl, rfl, rfl, fun _ => rfl, ⟨rfl, rfl, rfl⟩, ⟨rfl, rfl⟩, rfl, rfl⟩
  case record => rw [incremented, word_add_one_sub_one]

/-! ### OUT as an `Out`, the others as faults (R132, R137, R150, R151) -/

theorem exec_out (s : State) : exec .out s = .next (s.out (lowByte (s.reg .r0))) := rfl

theorem exec_trap (code : Byte) (s : State) : exec (.trap code) s = .next (raiseFault (.unknownTrap code) s) := rfl

theorem exec_rti (s : State) : exec .rti s = .next (raiseFault (.reservedOpcode 8) s) := rfl

theorem exec_res (s : State) : exec .res s = .next (raiseFault (.reservedOpcode 13) s) := rfl

/-! ### The obligations -/

/-- Settles O35: OUT is one `Out` of the lower half of R0 (R132). -/
theorem outWritesTheLowByte : Obligations.OutWritesTheLowByte :=
  fun s => ⟨_, exec_out s, ⟨_, s.out_output _, lowByte_toNat _⟩, s.out_frame _⟩

/-- Settles O43: each of the three is one fault entry, with its own cause (R137, R150, R151). -/
theorem reservedOpcodesAndUnknownTrapsFault : Obligations.ReservedOpcodesAndUnknownTrapsFault := by
  refine ⟨fun c ir => ⟨fun hop => decode_of_opcode_rti c hop, fun hop => decode_of_opcode_res c hop,
    fun hop unknown => (decode_of_opcode_trap c hop).trans (decodeTrap_of_not_mem unknown)⟩,
    fun i cause s a incremented raises => ⟨raiseFault cause s, ?entersFault, raiseFault_effect cause incremented⟩⟩
  case entersFault =>
    obtain ⟨rfl, rfl⟩ | ⟨rfl, rfl⟩ | ⟨code, rfl, rfl⟩ := raises
    · exact exec_rti s
    · exact exec_res s
    · exact exec_trap code s

end Sys2Proof.Machine
end

section
namespace Sys2Proof.Machine

/-! ## 60_exceptions.md: precise faults -/

/-! ### A step while RUNNING -/

/-- With no routine running on, a step is `exec` of the fetched word after the increment (R80, R81). -/
theorem step_of_running {s : State} (running : s.run = .running) (noRoutine : s.routine = none) :
    step s = exec (decode s.cfg (memRead s.pc s).1) ((memRead s.pc s).2.setPc (s.pc + 1)) := by
  rw [step, running, noRoutine, fetch_eq]
  simp only [State.setPc_cfg, memRead_cfg]

/-! ### Which operations leave the run state alone -/

theorem inRead_run {s t : State} {b : Byte} (read : inRead s = some (b, t)) : t.run = s.run := by
  obtain ⟨-, -, never⟩ | ⟨-, c, rest, -, listed⟩ | ⟨-, c, rest, -, -, repeated⟩ := inRead_cases s
  · cases never.symm.trans read
  · cases listed.symm.trans read
    exact s.consume_run rest
  · cases repeated.symm.trans read
    exact s.consume_run rest

theorem readIntoR0_run (s : State) : (readIntoR0 s).run = s.run := by
  rw [readIntoR0]
  split
  next b s1 read => exact (s1.setReg_run .r0 _).trans (inRead_run read)
  next => exact s.setRoutine_run _

theorem readEchoIntoR0_run (s : State) : (readEchoIntoR0 s).run = s.run := by
  rw [readEchoIntoR0]
  split
  next b s1 read => exact ((s1.out b).setReg_run .r0 _).trans ((s1.out_run b).trans (inRead_run read))
  next => exact s.setRoutine_run _

theorem loadInto_run (dr : Reg) (ea : Word) (s : State) : (loadInto dr ea s).run = s.run := by
  rw [loadInto, State.writeFlagged_run, memRead_run]

/-! ### What an instruction can do to the run state (R83) -/

/-- The instruction `i` raises a fault with `cause`: RTI, RES and the unknown trap codes do (R160). -/
def Raises (i : Instr) (cause : FaultCause) : Prop :=
  (i = .rti ∧ cause = .reservedOpcode 8) ∨ (i = .res ∧ cause = .reservedOpcode 13) ∨
    ∃ code, i = .trap code ∧ cause = .unknownTrap code

/-- The three ways an instruction `i` that takes `s` to `t` treats the run state. -/
inductive RunEffect (i : Instr) (s t : State) : Prop where
  | kept (run : t.run = s.run)
  | halts (isHalt : i = .halt) (run : t.run = .halted)
  | faults (cause : FaultCause) (raises : Raises i cause) (entry : t = raiseFault cause s)

/-- Every instruction has a next state, and reaches FAULTED by a fault entry alone (R83, R161). -/
theorem exec_runEffect (i : Instr) (s : State) : ∃ t, exec i s = .next t ∧ RunEffect i s t := by
  cases i with
  | addReg dr sr1 sr2 => exact ⟨_, exec_addReg dr sr1 sr2 s, .kept (s.writeFlagged_run dr _)⟩
  | addImm dr sr1 imm5 => exact ⟨_, exec_addImm dr sr1 imm5 s, .kept (s.writeFlagged_run dr _)⟩
  | andReg dr sr1 sr2 => exact ⟨_, exec_andReg dr sr1 sr2 s, .kept (s.writeFlagged_run dr _)⟩
  | andImm dr sr1 imm5 => exact ⟨_, exec_andImm dr sr1 imm5 s, .kept (s.writeFlagged_run dr _)⟩
  | not dr sr => exact ⟨_, exec_not dr sr s, .kept (s.writeFlagged_run dr _)⟩
  | br n z p off => exact ⟨_, exec_br n z p off s, .kept (s.setPc_run _)⟩
  | jmp baseR => exact ⟨_, exec_jmp baseR s, .kept (s.setPc_run _)⟩
  | jsr off => exact ⟨_, exec_jsr off s, .kept ((State.setPc_run _ _).trans (s.setReg_run .r7 s.pc))⟩
  | jsrr baseR => exact ⟨_, exec_jsrr baseR s, .kept ((State.setPc_run _ _).trans (s.setReg_run .r7 s.pc))⟩
  | ld dr off => exact ⟨_, exec_ld dr off s, .kept (loadInto_run dr _ s)⟩
  | ldi dr off => exact ⟨_, exec_ldi dr off s, .kept ((loadInto_run dr _ _).trans (memRead_run _ s))⟩
  | ldr dr baseR off => exact ⟨_, exec_ldr dr baseR off s, .kept (loadInto_run dr _ s)⟩
  | lea dr off => exact ⟨_, exec_lea dr off s, .kept (s.writeFlagged_run dr _)⟩
  | st sr off => exact ⟨_, exec_st sr off s, .kept (memWrite_run _ _ s)⟩
  | sti sr off => exact ⟨_, exec_sti sr off s, .kept ((memWrite_run _ _ _).trans (memRead_run _ s))⟩
  | str sr baseR off => exact ⟨_, exec_str sr baseR off s, .kept (memWrite_run _ _ s)⟩
  | getc => exact ⟨_, rfl, .kept (readIntoR0_run s)⟩
  | out => exact ⟨_, exec_out s, .kept (s.out_run _)⟩
  | puts => exact ⟨_, rfl, .kept (stringFrame_putsLoop _ _ s).run⟩
  | in_ => exact ⟨_, rfl, .kept ((readEchoIntoR0_run _).trans (s.outAll_run _))⟩
  | putsp => exact ⟨_, rfl, .kept ((stringFrame_memRead _ s).trans (stringFrame_putspLoop _ _ _ _)).run⟩
  | halt => exact ⟨_, rfl, .halts rfl (State.setRun_run _ _)⟩
  | trap code => exact ⟨_, exec_trap code s, .faults _ (.inr (.inr ⟨code, rfl, rfl⟩)) rfl⟩
  | rti => exact ⟨_, exec_rti s, .faults _ (.inl ⟨rfl, rfl⟩) rfl⟩
  | res => exact ⟨_, exec_res s, .faults _ (.inr (.inl ⟨rfl, rfl⟩)) rfl⟩

/-- A step from RUNNING to FAULTED is a fault entry right after the fetch and the increment (R161). -/
theorem step_to_faulted {s t : State} (running : s.run = .running) (noRoutine : s.routine = none)
    (steps : step s = .next t) (faulted : t.run = .faulted) :
    ∃ cause, Raises (decode s.cfg (memRead s.pc s).1) cause ∧
      t = raiseFault cause ((memRead s.pc s).2.setPc (s.pc + 1)) := by
  obtain ⟨u, executes, effect⟩ :=
    exec_runEffect (decode s.cfg (memRead s.pc s).1) ((memRead s.pc s).2.setPc (s.pc + 1))
  rw [step_of_running running noRoutine, executes] at steps
  cases steps
  cases effect with
  | kept run => rw [run, State.setPc_run, memRead_run, running] at faulted; cases faulted
  | halts _ run => rw [run] at faulted; cases faulted
  | faults cause raises entry => exact ⟨cause, raises, entry⟩

/-! ### The obligation -/

/-- Settles O11: the step is the fetch, the increment and one fault entry, whose cause the fetched word decides
(R161, R162). -/
theorem faultsArePrecise : Obligations.FaultsArePrecise := by
  intro s t running noRoutine steps faulted
  obtain ⟨cause, raises, rfl⟩ := step_to_faulted running noRoutine steps faulted
  obtain ⟨-, record, regs, cond, pc, -, input, output, routine, cfg⟩ :=
    raiseFault_effect cause ((memRead s.pc s).2.setPc_pc (s.pc + 1))
  obtain ⟨-, fetchRegs, -, fetchControl, fetchOutput⟩ := memRead_loadFrame [] s.pc s
  have increment := (memRead s.pc s).2.setPc_systemKept (s.pc + 1)
  refine ⟨fun r hr => (regs r hr).trans (fetchRegs r hr), cond.trans (memRead_cond s.pc s), pc, rfl,
    ⟨input.input, input.inputCycle, input.consumed⟩, (fetchOutput.trans increment.output).trans output,
    routine.trans (fetchControl.routine.trans noRoutine), cfg.trans fetchControl.cfg, ?cause⟩
  case cause =>
    rw [record]
    obtain ⟨isRti, rfl⟩ | ⟨isRes, rfl⟩ | ⟨code, isTrap, rfl⟩ := raises
    · exact .inl ⟨isRti, rfl⟩
    · exact .inr (.inl ⟨isRes, rfl⟩)
    · exact .inr (.inr ⟨code, isTrap, rfl⟩)

end Sys2Proof.Machine
end

section
namespace Sys2Proof

/-! ## 30_encoding.md: words and their fields -/

/-! ### Words that agree under a mask -/

theorem and_eq_and_iff (w w' m : Word) :
    w &&& m = w' &&& m ↔ ∀ k, m.getLsbD k = true → w.getLsbD k = w'.getLsbD k := by
  constructor
  · intro agree k masked
    simpa only [BitVec.getLsbD_and, masked, Bool.and_true] using congrArg (BitVec.getLsbD · k) agree
  · intro bits
    refine BitVec.eq_of_getLsbD_eq fun k _ => ?_
    rw [BitVec.getLsbD_and, BitVec.getLsbD_and]
    cases masked : m.getLsbD k
    case false => rw [Bool.and_false, Bool.and_false]
    case true => rw [bits k masked]

theorem and_or_eq_and_or_iff (w w' m n : Word) :
    w &&& (m ||| n) = w' &&& (m ||| n) ↔ w &&& m = w' &&& m ∧ w &&& n = w' &&& n := by
  simp only [and_eq_and_iff, BitVec.getLsbD_or, Bool.or_eq_true, or_imp, forall_and]

/-! ### Fields of a word with a value (R62) -/

/-- A value for the bits of a word that lie from `start` on. -/
structure FieldValue where
  start : Nat
  len : Nat
  value : BitVec len

namespace FieldValue

/-- A value for one bit. -/
def bit (k : Nat) (b : Bool) : FieldValue := ⟨k, 1, BitVec.ofBool b⟩

/-- The word has the value in the field. -/
def At (f : FieldValue) (w : Word) : Prop := w.extractLsb' f.start f.len = f.value

/-- Ones in the field and zeros elsewhere. -/
def mask (f : FieldValue) : Word := (BitVec.allOnes f.len).setWidth 16 <<< f.start

/-- Ones in all the fields and zeros elsewhere. -/
def maskAll (fs : List FieldValue) : Word := fs.foldr (fun f m => f.mask ||| m) 0

theorem mask_getLsbD (f : FieldValue) (k : Nat) :
    f.mask.getLsbD k = true ↔ k < 16 ∧ f.start ≤ k ∧ k < f.start + f.len := by
  simp only [mask, BitVec.getLsbD_shiftLeft, BitVec.getLsbD_setWidth, BitVec.getLsbD_allOnes, Bool.and_eq_true,
    decide_eq_true_eq, Bool.not_eq_true', decide_eq_false_iff_not]
  omega

/-- Words that agree under the mask of a field are words with the same bits there. -/
theorem and_mask_eq_iff (f : FieldValue) (w w' : Word) :
    w &&& f.mask = w' &&& f.mask ↔ w.extractLsb' f.start f.len = w'.extractLsb' f.start f.len := by
  simp only [and_eq_and_iff, mask_getLsbD]
  constructor
  · intro bits
    refine BitVec.eq_of_getLsbD_eq fun j hj => ?_
    simp only [BitVec.getLsbD_extractLsb', hj, decide_true, Bool.true_and]
    rcases Nat.lt_or_ge (f.start + j) 16 with inside | outside
    · exact bits _ ⟨inside, by omega, by omega⟩
    · rw [BitVec.getLsbD_of_ge _ _ outside, BitVec.getLsbD_of_ge _ _ outside]
  · rintro same k ⟨-, above, below⟩
    simpa only [BitVec.getLsbD_extractLsb', decide_eq_true (show k - f.start < f.len by omega), Bool.true_and,
      Nat.add_sub_cancel' above] using congrArg (BitVec.getLsbD · (k - f.start)) same

/-- A word agrees with one that has all the values, on the bits of the fields, exactly if it has them too. -/
theorem and_maskAll_eq_iff {fs : List FieldValue} {w : Word} (has : ∀ f ∈ fs, f.At w) (w' : Word) :
    w &&& maskAll fs = w' &&& maskAll fs ↔ ∀ f ∈ fs, f.At w' := by
  induction fs with
  | nil => simp [maskAll]
  | cons f fs ih =>
    obtain ⟨here, rest⟩ := List.forall_mem_cons.1 has
    rw [List.forall_mem_cons, ← ih rest]
    refine (and_or_eq_and_or_iff w w' f.mask (maskAll fs)).trans (and_congr_left' ?_)
    rw [f.and_mask_eq_iff, here, At, eq_comm]

/-! ### The decoder's fields as values (R62, R65) -/

theorem reg_at_iff (k : Nat) (r : Reg) (w : Word) :
    At ⟨k, 3, r.toBits⟩ w ↔ Reg.ofBits (w.extractLsb' k 3) = r := by
  refine ⟨fun at_ => at_ ▸ r.ofBits_toBits, ?_⟩
  rintro rfl
  exact (Reg.toBits_ofBits _).symm

theorem bit_at_iff (k : Nat) (b : Bool) (w : Word) : At (bit k b) w ↔ w.getLsbD k = b := by
  have single : w.extractLsb' k 1 = BitVec.ofBool (w.getLsbD k) :=
    BitVec.eq_of_getLsbD_eq fun j hj => by
      obtain rfl : j = 0 := by omega
      simp
  rw [At, bit, single]
  exact ⟨fun same => by simpa using congrArg (BitVec.getLsbD · 0) same, congrArg BitVec.ofBool⟩

@[simp] theorem opcode_at_iff (o : Opcode) (w : Word) : At ⟨12, 4, o.toBits⟩ w ↔ Field.opcode w = o.toBits := Iff.rfl
@[simp] theorem dr_at_iff (r : Reg) (w : Word) : At ⟨9, 3, r.toBits⟩ w ↔ Field.dr w = r := reg_at_iff 9 r w
@[simp] theorem baseR_at_iff (r : Reg) (w : Word) : At ⟨6, 3, r.toBits⟩ w ↔ Field.baseR w = r := reg_at_iff 6 r w
@[simp] theorem sr2_at_iff (r : Reg) (w : Word) : At ⟨0, 3, r.toBits⟩ w ↔ Field.sr2 w = r := reg_at_iff 0 r w
@[simp] theorem mode_at_iff (b : Bool) (w : Word) : At (bit 5 b) w ↔ Field.mode w = b := bit_at_iff 5 b w
@[simp] theorem bit11_at_iff (b : Bool) (w : Word) : At (bit 11 b) w ↔ Field.bit11 w = b := bit_at_iff 11 b w
@[simp] theorem bit10_at_iff (b : Bool) (w : Word) : At (bit 10 b) w ↔ Field.bit10 w = b := bit_at_iff 10 b w
@[simp] theorem bit9_at_iff (b : Bool) (w : Word) : At (bit 9 b) w ↔ Field.bit9 w = b := bit_at_iff 9 b w
@[simp] theorem imm5_at_iff (v : BitVec 5) (w : Word) : At ⟨0, 5, v⟩ w ↔ Field.imm5 w = v := Iff.rfl
@[simp] theorem offset6_at_iff (v : BitVec 6) (w : Word) : At ⟨0, 6, v⟩ w ↔ Field.offset6 w = v := Iff.rfl
@[simp] theorem pcOffset9_at_iff (v : BitVec 9) (w : Word) : At ⟨0, 9, v⟩ w ↔ Field.pcOffset9 w = v := Iff.rfl
@[simp] theorem pcOffset11_at_iff (v : BitVec 11) (w : Word) : At ⟨0, 11, v⟩ w ↔ Field.pcOffset11 w = v := Iff.rfl
@[simp] theorem trapvect8_at_iff (v : Byte) (w : Word) : At ⟨0, 8, v⟩ w ↔ Field.trapvect8 w = v := Iff.rfl

end FieldValue

/-! ### Fields of concatenated bits -/

/-- The last part of a concatenation lies at bit 0. -/
theorem extract_last {n m : Nat} (high : BitVec m) (low : BitVec n) : (high ++ low).extractLsb' 0 n = low := by
  rw [BitVec.extractLsb'_append_eq_of_add_le (Nat.zero_add n).le, BitVec.extractLsb'_eq_self]

/-- A part of the first part of a concatenation lies higher by the width of the second. -/
theorem extract_above {m n start len : Nat} {high : BitVec m} {part : BitVec len} (low : BitVec n)
    (at_ : high.extractLsb' start len = part) : (high ++ low).extractLsb' (start + n) len = part := by
  rw [BitVec.extractLsb'_append_eq_of_le (Nat.le_add_left n start), Nat.add_sub_cancel, at_]

/-! ### The fields of an instruction (R63) -/

/-- The bits of a TRAP with the code: its opcode and the code. -/
def trapFields (code : Byte) : List FieldValue := [⟨12, 4, Opcode.trap.toBits⟩, ⟨0, 8, code⟩]

/-- The bits of the instruction's word that R63 does not mark `-`, with their values. -/
@[simp] def Instr.fields (c : Config) : Instr → List FieldValue
  | .addReg dr sr1 sr2 =>
    [⟨12, 4, Opcode.add.toBits⟩, ⟨9, 3, dr.toBits⟩, ⟨6, 3, sr1.toBits⟩, .bit 5 false, ⟨0, 3, sr2.toBits⟩]
  | .addImm dr sr1 imm5 =>
    [⟨12, 4, Opcode.add.toBits⟩, ⟨9, 3, dr.toBits⟩, ⟨6, 3, sr1.toBits⟩, .bit 5 true, ⟨0, 5, imm5⟩]
  | .andReg dr sr1 sr2 =>
    [⟨12, 4, Opcode.and.toBits⟩, ⟨9, 3, dr.toBits⟩, ⟨6, 3, sr1.toBits⟩, .bit 5 false, ⟨0, 3, sr2.toBits⟩]
  | .andImm dr sr1 imm5 =>
    [⟨12, 4, Opcode.and.toBits⟩, ⟨9, 3, dr.toBits⟩, ⟨6, 3, sr1.toBits⟩, .bit 5 true, ⟨0, 5, imm5⟩]
  | .not dr sr => [⟨12, 4, Opcode.not.toBits⟩, ⟨9, 3, dr.toBits⟩, ⟨6, 3, sr.toBits⟩]
  | .br n z p off =>
    [⟨12, 4, Opcode.br.toBits⟩, .bit 11 n, .bit 10 z, .bit 9 p, ⟨0, 9, off⟩]
  | .jmp baseR => [⟨12, 4, Opcode.jmp.toBits⟩, ⟨6, 3, baseR.toBits⟩]
  | .jsr off => [⟨12, 4, Opcode.jsr.toBits⟩, .bit 11 true, ⟨0, 11, off⟩]
  | .jsrr baseR => [⟨12, 4, Opcode.jsr.toBits⟩, .bit 11 false, ⟨6, 3, baseR.toBits⟩]
  | .ld dr off => [⟨12, 4, Opcode.ld.toBits⟩, ⟨9, 3, dr.toBits⟩, ⟨0, 9, off⟩]
  | .ldi dr off => [⟨12, 4, Opcode.ldi.toBits⟩, ⟨9, 3, dr.toBits⟩, ⟨0, 9, off⟩]
  | .ldr dr baseR off => [⟨12, 4, Opcode.ldr.toBits⟩, ⟨9, 3, dr.toBits⟩, ⟨6, 3, baseR.toBits⟩, ⟨0, 6, off⟩]
  | .lea dr off => [⟨12, 4, Opcode.lea.toBits⟩, ⟨9, 3, dr.toBits⟩, ⟨0, 9, off⟩]
  | .st sr off => [⟨12, 4, Opcode.st.toBits⟩, ⟨9, 3, sr.toBits⟩, ⟨0, 9, off⟩]
  | .sti sr off => [⟨12, 4, Opcode.sti.toBits⟩, ⟨9, 3, sr.toBits⟩, ⟨0, 9, off⟩]
  | .str sr baseR off => [⟨12, 4, Opcode.str.toBits⟩, ⟨9, 3, sr.toBits⟩, ⟨6, 3, baseR.toBits⟩, ⟨0, 6, off⟩]
  | .getc => trapFields c.trapGetc
  | .out => trapFields c.trapOut
  | .puts => trapFields c.trapPuts
  | .in_ => trapFields c.trapIn
  | .putsp => trapFields c.trapPutsp
  | .halt => trapFields c.trapHalt
  | .trap code => trapFields code
  | .rti => [⟨12, 4, Opcode.rti.toBits⟩]
  | .res => [⟨12, 4, Opcode.res.toBits⟩]

theorem Instr.fields_of_trap (c : Config) {i : Instr} (isTrap : i.opcode = .trap) :
    ∃ code, i.fields c = trapFields code := by
  cases i <;> cases isTrap
  all_goals exact ⟨_, rfl⟩

/-- The word has in every field of the instruction the value that the instruction gives it. -/
@[simp] def Instr.WordHas (c : Config) (i : Instr) (w : Word) : Prop := ∀ f ∈ i.fields c, f.At w

/-- The fields of an instruction are all the bits that its decoding looks at. -/
theorem maskAll_fields (c : Config) (i : Instr) : FieldValue.maskAll (i.fields c) = i.usedBits := by
  cases i <;> simp [FieldValue.maskAll, trapFields, FieldValue.bit, FieldValue.mask, Instr.usedBits]

/-- A word agrees on the used bits with a word of an instruction exactly if it is one too (R66). -/
theorem and_usedBits_eq_iff {c : Config} {i : Instr} {w : Word} (has : i.WordHas c w) (w' : Word) :
    w &&& i.usedBits = w' &&& i.usedBits ↔ i.WordHas c w' := by
  rw [← maskAll_fields c]
  exact FieldValue.and_maskAll_eq_iff has w'

/-- The encoder writes each field where the decoder reads it: the parts of the word below the field are as wide as its
position. -/
theorem encode_wordHas (c : Config) (i : Instr) : i.WordHas c (encode c i) := by
  cases i <;> simp only [Instr.WordHas, Instr.fields, trapFields, FieldValue.bit, List.forall_mem_cons,
    List.not_mem_nil, false_imp_iff, implies_true, and_true] <;> and_intros
  all_goals apply_rules [extract_above, extract_last, BitVec.extractLsb'_eq_self]

theorem Instr.WordHas.opcode {c : Config} {i : Instr} {w : Word} (has : i.WordHas c w) :
    Field.opcode w = i.opcode.toBits := by
  cases i <;> exact has _ List.mem_cons_self

theorem Instr.WordHas.trapvect8_eq {c : Config} {i : Instr} {w w' : Word} (has : i.WordHas c w)
    (has' : i.WordHas c w') (isTrap : i.opcode = .trap) : Field.trapvect8 w = Field.trapvect8 w' := by
  obtain ⟨code, fields⟩ := Instr.fields_of_trap c isTrap
  have codeAt : ⟨0, 8, code⟩ ∈ i.fields c := fields ▸ List.mem_cons_of_mem _ List.mem_cons_self
  exact (has _ codeAt).trans (has' _ codeAt).symm

/-! ### Decoding a word with the fields of an instruction (R72) -/

/-- A word with the fields of an instruction decodes to it; a trap row has to be the one that R130 selects. -/
theorem decode_of_wordHas {c : Config} {i : Instr} {w : Word} (has : i.WordHas c w)
    (selected : i.opcode = .trap → decodeTrap c (Field.trapvect8 w) = i) : decode c w = i := by
  have op := has.opcode
  by_cases isTrap : i.opcode = .trap
  · exact (decode_of_opcode_trap c (isTrap ▸ op)).trans (selected isTrap)
  · cases i <;> simp at has
    case addReg => simp [decode_of_opcode_add c op, has]
    case addImm => simp [decode_of_opcode_add c op, has]
    case andReg => simp [decode_of_opcode_and c op, has]
    case andImm => simp [decode_of_opcode_and c op, has]
    case not => simp [decode_of_opcode_not c op, has]
    case br => simp [decode_of_opcode_br c op, has]
    case jmp => simp [decode_of_opcode_jmp c op, has]
    case jsr => simp [decode_of_opcode_jsr c op, has]
    case jsrr => simp [decode_of_opcode_jsr c op, has]
    case ld => simp [decode_of_opcode_ld c op, has]
    case ldi => simp [decode_of_opcode_ldi c op, has]
    case ldr => simp [decode_of_opcode_ldr c op, has]
    case lea => simp [decode_of_opcode_lea c op, has]
    case st => simp [decode_of_opcode_st c op, has]
    case sti => simp [decode_of_opcode_sti c op, has]
    case str => simp [decode_of_opcode_str c op, has]
    case rti => exact decode_of_opcode_rti c op
    case res => exact decode_of_opcode_res c op
    all_goals exact absurd rfl isTrap

theorem fields_decodeTrap (c : Config) (code : Byte) : (decodeTrap c code).fields c = trapFields code := by
  rw [decodeTrap]
  split_ifs <;> simp only [Instr.fields, *]

/-- Every word has the fields of the instruction that it decodes to. -/
theorem decode_wordHas (c : Config) (w : Word) : (decode c w).WordHas c w := by
  obtain ⟨o, op⟩ : ∃ o : Opcode, Field.opcode w = o.toBits := ⟨_, (Opcode.toBits_ofBits _).symm⟩
  cases o
  case br => simp [decode_of_opcode_br c op, op]
  case add => cases mode : Field.mode w <;> simp [decode_of_opcode_add c op, op, mode]
  case ld => simp [decode_of_opcode_ld c op, op]
  case st => simp [decode_of_opcode_st c op, op]
  case jsr => cases long : Field.bit11 w <;> simp [decode_of_opcode_jsr c op, op, long]
  case and => cases mode : Field.mode w <;> simp [decode_of_opcode_and c op, op, mode]
  case ldr => simp [decode_of_opcode_ldr c op, op]
  case str => simp [decode_of_opcode_str c op, op]
  case rti => simp [decode_of_opcode_rti c op, op]
  case not => simp [decode_of_opcode_not c op, op]
  case ldi => simp [decode_of_opcode_ldi c op, op]
  case sti => simp [decode_of_opcode_sti c op, op]
  case jmp => simp [decode_of_opcode_jmp c op, op]
  case res => simp [decode_of_opcode_res c op, op]
  case lea => simp [decode_of_opcode_lea c op, op]
  case trap =>
    rw [decode_of_opcode_trap c op, Instr.WordHas, fields_decodeTrap]
    simp [trapFields, op]

/-- The code of a word that decodes to a trap row selects that row. -/
theorem decodeTrap_of_decode {c : Config} {w : Word} (isTrap : (decode c w).opcode = .trap) :
    decodeTrap c (Field.trapvect8 w) = decode c w :=
  (decode_of_opcode_trap c (isTrap ▸ (decode_wordHas c w).opcode)).symm

/-! ### The dispatch of TRAP (R130) -/

/-- The six trap numbers differ, so each selects its own row. -/
theorem decodeTrap_trapNumbers {c : Config} (wf : c.wf) :
    decodeTrap c c.trapGetc = .getc ∧ decodeTrap c c.trapOut = .out ∧ decodeTrap c c.trapPuts = .puts ∧
      decodeTrap c c.trapIn = .in_ ∧ decodeTrap c c.trapPutsp = .putsp ∧ decodeTrap c c.trapHalt = .halt := by
  obtain ⟨-, -, distinct⟩ := wf
  simp only [Config.trapNumbers, List.nodup_cons, List.mem_cons, List.not_mem_nil, or_false, not_or] at distinct
  simp [decodeTrap, Ne.symm, distinct]

theorem decodeTrap_wf (c : Config) (code : Byte) : (decodeTrap c code).wf c = true := by
  rw [decodeTrap]
  split_ifs
  case neg => simp [Instr.wf, Config.unknownTrap, Config.trapNumbers, *]
  all_goals rfl

/-- The one check of well-formedness is on the code of the catch-all row. -/
theorem wf_of_opcode_ne_trap (c : Config) {i : Instr} (notTrap : i.opcode ≠ .trap) : i.wf c = true := by
  cases i
  case getc | out | puts | in_ | putsp | halt | trap => exact absurd rfl notTrap
  all_goals rfl

/-- Every word decodes to a well-formed instruction (R72). -/
theorem decode_wf (c : Config) (w : Word) : (decode c w).wf c = true := by
  by_cases isTrap : (decode c w).opcode = .trap
  · exact decodeTrap_of_decode isTrap ▸ decodeTrap_wf c _
  · exact wf_of_opcode_ne_trap c isTrap

/-- The code of an encoded trap row selects the row. -/
theorem decodeTrap_encode {c : Config} {i : Instr} (wf : c.wf) (wellFormed : i.wf c = true)
    (isTrap : i.opcode = .trap) : decodeTrap c (Field.trapvect8 (encode c i)) = i := by
  obtain ⟨getc, out, puts, in_, putsp, halt⟩ := decodeTrap_trapNumbers wf
  cases i <;> cases isTrap
  all_goals rw [encode, encodeTrap_trapvect8]
  case trap.refl code => exact decodeTrap_of_not_mem (by simpa [Instr.wf, Config.unknownTrap] using wellFormed)
  all_goals assumption

/-! ### Sign extension (R64) -/

/-- The low bits of a sign extension are the field. -/
theorem setWidth_signExtend {m n : Nat} (v : BitVec n) (wider : n ≤ m) : (v.signExtend m).setWidth n = v := by
  refine BitVec.eq_of_getLsbD_eq fun k hk => ?_
  simp only [BitVec.getLsbD_setWidth, BitVec.getLsbD_signExtend, hk, Nat.lt_of_lt_of_le hk wider, decide_true, if_true,
    Bool.true_and]

/-- Sign extension keeps the two's-complement value and is idempotent, for every width up to 16. -/
theorem signExtend_keeps_value {n : Nat} (v : BitVec n) (narrow : n ≤ 16) :
    (v.signExtend 16).toInt = v.toInt ∧ ((v.signExtend 16).setWidth n).signExtend 16 = v.signExtend 16 :=
  ⟨BitVec.toInt_signExtend_of_le narrow, by rw [setWidth_signExtend v narrow]⟩

/-! ### The obligations -/

/-- Settles O1: sixteen runs of the decoder on closed words. -/
theorem specWordsDecodeToTheirInstructions : Obligations.SpecWordsDecodeToTheirInstructions := by
  unfold Obligations.SpecWordsDecodeToTheirInstructions
  decide

/-- Settles O2: the encoded word has the instruction's fields, and its trap code, if it is a TRAP, selects the row. -/
theorem decodeOfEncodeIsTheInstruction : Obligations.DecodeOfEncodeIsTheInstruction :=
  fun c i wf wellFormed => decode_of_wordHas (encode_wordHas c i) (decodeTrap_encode wf wellFormed)

/-- Settles O3: the word itself has the fields of the instruction that it decodes to, as the encoded word has. -/
theorem everyWordIsAnInstructionsWord : Obligations.EveryWordIsAnInstructionsWord :=
  fun c w => ⟨decode_wf c w, (and_usedBits_eq_iff (encode_wordHas c _) w).2 (decode_wordHas c w)⟩

/-- Settles O4: a word that agrees on the used bits has the same fields, and the same trap code selects the same row
(R66). -/
theorem unusedBitsMakeNoDifference : Obligations.UnusedBitsMakeNoDifference := by
  intro c w w' agree
  have has := decode_wordHas c w
  have has' := (and_usedBits_eq_iff has w').1 agree
  exact decode_of_wordHas has' fun isTrap => has.trapvect8_eq has' isTrap ▸ decodeTrap_of_decode isTrap

/-- Settles O5: the four widths are at most 16. -/
theorem signExtensionKeepsTheSignedValue : Obligations.SignExtensionKeepsTheSignedValue :=
  ⟨fun v => signExtend_keeps_value v (by decide), fun v => signExtend_keeps_value v (by decide),
    fun v => signExtend_keeps_value v (by decide), fun v => signExtend_keeps_value v (by decide)⟩

/-- Settles O6: the dispatch looks at the low 8 bits alone (R130). -/
theorem trapCodeSelectsTheRoutine : Obligations.TrapCodeSelectsTheRoutine := by
  intro c ir wf op
  obtain ⟨getc, out, puts, in_, putsp, halt⟩ := decodeTrap_trapNumbers wf
  rw [decode_of_opcode_trap c op]
  refine ⟨fun code => ?_, fun code => ?_, fun code => ?_, fun code => ?_, fun code => ?_, fun code => ?_,
    decodeTrap_of_not_mem⟩
  all_goals rwa [Field.trapvect8, code]

end Sys2Proof
end

section
namespace Sys2Proof.Machine

/-! ## 20_memory.md and 40_execution_cycle.md: the memory as data, the keyboard cells, and the step -/

/-! ### Canonical memories as data -/

/-- Where the keys of two canonical memories that read alike begin differently, one lists a word that the other does
not. -/
theorem Memory.head_key_le {c d : WordCell} {m m' : Memory} (rising : (d :: m').Pairwise fun a b => a.1 < b.1)
    (listed : c.2 ≠ Memory.unlisted) (alike : Memory.readAt (c :: m) c.1 = Memory.readAt (d :: m') c.1) :
    d.1 ≤ c.1 := by
  by_contra! before
  have below : ∀ e ∈ d :: m', c.1 < e.1 :=
    List.forall_mem_cons.2 ⟨before, fun e he => before.trans ((List.pairwise_cons.1 rising).1 e he)⟩
  rw [Memory.readAt_of_lt_all below, Memory.readAt, if_pos rfl] at alike
  exact listed alike

theorem Memory.eq_of_readAt_eq {m m' : Memory} (rising : m.Pairwise fun a b => a.1 < b.1)
    (rising' : m'.Pairwise fun a b => a.1 < b.1) (listed : ∀ c ∈ m, c.2 ≠ Memory.unlisted)
    (listed' : ∀ c ∈ m', c.2 ≠ Memory.unlisted) (alike : ∀ k, m.readAt k = m'.readAt k) : m = m' := by
  induction m generalizing m' with
  | nil =>
    cases m' with
    | nil => rfl
    | cons d m' => exact absurd (by simpa [Memory.readAt] using (alike d.1).symm) (listed' d List.mem_cons_self)
  | cons c m ih =>
    cases m' with
    | nil => exact absurd (by simpa [Memory.readAt] using alike c.1) (listed c List.mem_cons_self)
    | cons d m' =>
      have key : c.1 = d.1 := le_antisymm
        (Memory.head_key_le rising (listed' d List.mem_cons_self) (alike d.1).symm)
        (Memory.head_key_le rising' (listed c List.mem_cons_self) (alike c.1))
      have word : c.2 = d.2 := by simpa [Memory.readAt, key] using alike c.1
      obtain ⟨above, rising⟩ := List.pairwise_cons.1 rising
      obtain ⟨above', rising'⟩ := List.pairwise_cons.1 rising'
      have tails : m = m' := ih rising rising' (fun e he => listed e (List.mem_cons_of_mem _ he))
        (fun e he => listed' e (List.mem_cons_of_mem _ he)) fun k => ?_
      · rw [tails, Prod.ext key word]
      · by_cases hk : c.1 = k
        · rw [← hk, Memory.readAt_of_lt_all above, key, Memory.readAt_of_lt_all above']
        · simpa [Memory.readAt, hk, ← key] using alike k

theorem Memory.readAt_eq_of_read_eq {m m' : Memory} (wf : m.wf) (wf' : m'.wf) (alike : ∀ a, m.read a = m'.read a)
    (k : Nat) : m.readAt k = m'.readAt k := by
  rcases Nat.lt_or_ge k 65536 with inside | outside
  · have := alike (BitVec.ofNat 16 k)
    rwa [Memory.read, Memory.read, BitVec.toNat_ofNat, Nat.mod_eq_of_lt inside] at this
  · have beyond {n : Memory} (wf : n.wf) : n.readAt k = Memory.unlisted :=
      Memory.readAt_of_not_listed fun c hc => ((wf.2 c hc).1.trans_le outside).ne
    rw [beyond wf, beyond wf']

/-- Settles O32: compared from the first cells on, the key of one memory is listed in the other. -/
theorem canonicalMemoriesThatReadAlikeAreEqual : Obligations.CanonicalMemoriesThatReadAlikeAreEqual :=
  fun _ _ wf wf' alike => Memory.eq_of_readAt_eq wf.1 wf'.1 (fun c hc => (wf.2 c hc).2) (fun c hc => (wf'.2 c hc).2)
    (Memory.readAt_eq_of_read_eq wf wf' alike)

/-! ### Writes and polls -/

/-- Settles O31: every write is the one store of `memWrite_effect` (R35). -/
theorem writesArePureStorage : Obligations.WritesArePureStorage := by
  intro a v s canonical
  obtain ⟨word, memory, regs, cond, pc, control, input, output⟩ := memWrite_effect canonical a v
  exact ⟨Memory.write_wf canonical a v, word, memory, regs, pc, cond, control, input, output⟩

theorem memRead_status_of_no_answer {s : State} (coming : s.coming = []) :
    memRead s.cfg.kbsrAddr s = (0, memWrite s.cfg.kbsrAddr 0 s) := by
  simp only [memRead, inPoll, coming, if_true]

theorem memRead_status_of_no_byte {s : State} {rest : List (Option Byte)} (coming : s.coming = none :: rest) :
    memRead s.cfg.kbsrAddr s = (0, memWrite s.cfg.kbsrAddr 0 (s.setInput rest)) := by
  simp only [memRead, inPoll, coming, if_true, State.setInput_cfg]

theorem memRead_status_of_byte {s : State} {b : Byte} {rest : List (Option Byte)} (coming : s.coming = some b :: rest) :
    memRead s.cfg.kbsrAddr s = (s.cfg.kbsrReady, memWrite s.cfg.kbsrAddr s.cfg.kbsrReady
      (memWrite s.cfg.kbdrAddr (zext8 b) (s.consume rest))) := by
  simp only [memRead, inPoll, coming, if_true, State.consume_cfg]

/-- A poll answers what it leaves in the status cell. -/
theorem memRead_status_cell {s : State} (canonical : s.mem.wf) :
    (memRead s.cfg.kbsrAddr s).2.mem.read s.cfg.kbsrAddr = (memRead s.cfg.kbsrAddr s).1 := by
  obtain ⟨elsewhere, -⟩ | ⟨-, -, reads⟩ | ⟨rest, -, -, reads⟩ | ⟨b, rest, -, -, reads⟩ := memRead_cases s.cfg.kbsrAddr s
  · exact absurd rfl elsewhere
  · rw [reads]; exact Memory.read_write_same canonical _ _
  · rw [reads]; exact Memory.read_write_same canonical _ _
  · rw [reads]; exact Memory.read_write_same (Memory.write_wf canonical _ _) _ _

theorem zext8_toNat (b : Byte) : (zext8 b).toNat = b.toNat := by
  rw [zext8, BitVec.toNat_setWidth, Nat.mod_eq_of_lt (b.isLt.trans (by decide))]

/-- Settles O30: the three cases of a poll (R33); the data cell differs from the status cell. -/
theorem statusReadPollsOnce : Obligations.StatusReadPollsOnce := by
  intro s canonical wf
  have dataApart : s.cfg.kbdrAddr ≠ s.cfg.kbsrAddr := Ne.symm wf.1
  obtain ⟨memory, regs, pc, control, output⟩ := memRead_loadFrame [] s.cfg.kbsrAddr s
  refine ⟨(memRead s.cfg.kbsrAddr s).1, (memRead s.cfg.kbsrAddr s).2, rfl, memRead_status_cell canonical,
    fun b rest coming => ?byte, fun rest coming => ?noByte, fun coming => ?noAnswer, memRead_inputCycle _ s, memory,
    regs, pc, memRead_cond _ s, control, output⟩
  case byte =>
    rw [memRead_status_of_byte coming]
    refine ⟨rfl, ?_, rfl, rfl⟩
    rw [memWrite_mem, Memory.read_write_other _ _ dataApart, memWrite_mem, State.consume_mem,
      Memory.read_write_same canonical, zext8_toNat]
  case noByte =>
    rw [memRead_status_of_no_byte coming]
    exact ⟨rfl, Memory.read_write_other _ _ dataApart, rfl, rfl⟩
  case noAnswer =>
    rw [memRead_status_of_no_answer coming]
    exact ⟨rfl, Memory.read_write_other _ _ dataApart, rfl, rfl, rfl⟩

/-! ### The step from a RUNNING state (R80, R81) -/

/-- Away from `KBSR_ADDR` a step executes the memory word at `pc`, and the fetch changes `pc` alone. -/
theorem step_plain {s : State} (running : s.run = .running) (noRoutine : s.routine = none)
    (notStatus : s.pc ≠ s.cfg.kbsrAddr) :
    step s = exec (decode s.cfg (s.mem.read s.pc)) (s.setPc (s.pc + 1)) := by
  rw [step_of_running running noRoutine, memRead_pure notStatus]

theorem step_of_not_running {s : State} (stopped : s.run ≠ .running) : step s = .next s := by
  unfold step
  split
  · rfl
  · rfl
  · exact absurd ‹_› stopped

theorem step_of_routine {s : State} {w : Routine} (running : s.run = .running) (runsOn : s.routine = some w) :
    step s = .next (resume w s) := by
  rw [step, running, runsOn]

/-- Settles O7: the step is the fetch through `MemRead`, the increment and `exec`. -/
theorem stepIsExecOfTheFetchedInstruction : Obligations.StepIsExecOfTheFetchedInstruction :=
  fun _ running noRoutine => ⟨⟨_, rfl, step_of_running running noRoutine⟩,
    fun _ notStatus decodes => decodes ▸ step_plain running noRoutine notStatus⟩

theorem core_run_succ {s t : State} (steps : step s = .next t) (n : Nat) :
    Sys2Proof.core.run (n + 1) s = Sys2Proof.core.run n t := by
  have coreSteps : Sys2Proof.core.step s = .next t := steps
  simp only [Host.Core.run, coreSteps]

/-- What holds at first and passes from the `k`-th state of a run to the next holds of every state of the run, and the
run goes on. -/
theorem core_run_invariant {P : Nat → State → Prop} {k : Nat} {s : State} (first : P k s)
    (preserved : ∀ k s, P k s → ∃ t, step s = .next t ∧ P (k + 1) t) (n : Nat) :
    ∃ t, Sys2Proof.core.run n s = .next t ∧ P (k + n) t := by
  induction n generalizing k s with
  | zero => exact ⟨s, rfl, first⟩
  | succ n ih =>
    obtain ⟨t, steps, next⟩ := preserved k s first
    obtain ⟨u, runs, last⟩ := ih next
    exact ⟨u, (core_run_succ steps n).trans runs, by rwa [Nat.add_right_comm] at last⟩

/-- Settles O9: a step of a state that is not RUNNING answers the same state (R18). -/
theorem haltedAndFaultedStatesAreFrozen : Obligations.HaltedAndFaultedStatesAreFrozen := by
  intro s n stopped
  obtain ⟨t, runs, rfl⟩ := core_run_invariant (P := fun _ t => t = s) (k := 0) rfl
    (fun _ t same => ⟨t, step_of_not_running (same ▸ stopped), same⟩) n
  exact runs

/-- Settles O51: `exec` has an arm for every instruction, and `step` a branch for every state (R86). -/
theorem everyStepAnswersANextState : Obligations.EveryStepAnswersANextState := by
  have execs (i : Instr) (s : State) : ∃ t, exec i s = .next t :=
    (exec_runEffect i s).imp fun _ effect => effect.1
  refine ⟨execs, fun s => ?_⟩
  by_cases running : s.run = .running
  · cases runsOn : s.routine with
    | none => exact step_of_running running runsOn ▸ execs _ _
    | some w => exact ⟨_, step_of_routine running runsOn⟩
  · exact ⟨s, step_of_not_running running⟩

/-! ### What a step does to the run state (R83) -/

theorem exec_halt (s : State) :
    exec .halt s = .next ((s.outAll s.cfg.haltNotice).outFlush.setRun .halted) := rfl

theorem exec_raises {i : Instr} {cause : FaultCause} (raises : Raises i cause) (s : State) :
    exec i s = .next (raiseFault cause s) := by
  obtain ⟨rfl, rfl⟩ | ⟨rfl, rfl⟩ | ⟨code, rfl, rfl⟩ := raises
  · exact exec_rti s
  · exact exec_res s
  · exact exec_trap code s

theorem exists_raises_iff {i : Instr} :
    (∃ cause, Raises i cause) ↔ i = .rti ∨ i = .res ∨ ∃ code, i = .trap code := by
  simp [Raises, exists_or]

/-- From RUNNING an instruction reaches HALTED exactly if it is HALT, and FAULTED exactly if it raises a fault. -/
theorem exec_run_iff {i : Instr} {s t : State} (running : s.run = .running) (execs : exec i s = .next t) :
    (t.run = .halted ↔ i = .halt) ∧ (t.run = .faulted ↔ ∃ cause, Raises i cause) := by
  obtain ⟨u, execs', effect⟩ := exec_runEffect i s
  cases execs.symm.trans execs'
  refine ⟨⟨fun halted => ?_, ?_⟩, ⟨fun faulted => ?_, ?_⟩⟩
  · cases effect with
    | kept run => cases (run.trans running).symm.trans halted
    | halts isHalt _ => exact isHalt
    | faults cause _ entry => rw [entry, raiseFault_eq] at halted; cases halted
  · rintro rfl
    cases execs.symm.trans (exec_halt s)
    rfl
  · cases effect with
    | kept run => cases (run.trans running).symm.trans faulted
    | halts _ run => cases run.symm.trans faulted
    | faults cause raises _ => exact ⟨cause, raises⟩
  · rintro ⟨cause, raises⟩
    cases execs.symm.trans (exec_raises raises s)
    rfl

/-- Settles O10: `exec_run_iff` for the fetched instruction; the fetch keeps the run state. -/
theorem runStateChangesOnlyByHaltAndFaults : Obligations.RunStateChangesOnlyByHaltAndFaults := by
  intro s t running noRoutine steps
  rw [step_of_running running noRoutine] at steps
  obtain ⟨halted, faulted⟩ := exec_run_iff ((State.setPc_run _ _).trans ((memRead_run s.pc s).trans running)) steps
  exact ⟨halted, faulted.trans exists_raises_iff⟩

/-- Settles O42: HALT prints the notice, moves the marker to the end and sets the run state (R136). -/
theorem haltPrintsFlushesAndHalts : Obligations.HaltPrintsFlushesAndHalts :=
  fun s => ⟨_, exec_halt s, rfl, rfl, rfl, fun _ _ => rfl, rfl, rfl, fun _ => rfl, ⟨rfl, rfl, rfl⟩, rfl, rfl, rfl⟩

/-! ### Fetches of special words -/

/-- The word 0x0000 is a branch with no condition bit set, which is never taken. -/
theorem exec_decode_zero (c : Config) (s : State) : exec (decode c 0) s = .next s := by
  have decodes : decode c 0 = .br false false false 0 := decode_of_opcode_br c rfl
  have untaken : ¬branchTaken false false false s.cond = true := by simp [branchTaken_iff]
  rw [decodes, exec_br, if_neg untaken]
  rfl

theorem decode_ready (c : Config) : decode c 0x8000 = .rti := decode_of_opcode_rti c rfl

/-- Settles O12: the status word is 0x0000, a branch not taken, or 0x8000, an RTI (R40). -/
theorem fetchAtTheStatusWordPolls : Obligations.FetchAtTheStatusWordPolls := by
  intro s running noRoutine atStatus ready
  have steps := step_of_running running noRoutine
  rw [atStatus] at steps ⊢
  rcases coming : s.coming with _ | ⟨_ | b, rest⟩
  case nil =>
    rw [memRead_status_of_no_answer coming] at steps ⊢
    exact ⟨_, steps.trans (exec_decode_zero _ _), rfl, rfl, ⟨rfl, rfl, rfl⟩, ⟨rfl, rfl⟩, fun _ _ => rfl, rfl, noRoutine,
      rfl, fun _ => ⟨running, rfl, rfl, rfl⟩, nofun, nofun⟩
  case cons.none =>
    rw [memRead_status_of_no_byte coming] at steps ⊢
    exact ⟨_, steps.trans (exec_decode_zero _ _), rfl, rfl, ⟨rfl, rfl, rfl⟩, ⟨rfl, rfl⟩, fun _ _ => rfl, rfl, noRoutine,
      rfl, nofun, fun _ same => ⟨running, rfl, (List.cons.inj same).2, rfl⟩, nofun⟩
  case cons.some =>
    rw [memRead_status_of_byte coming, ready, decode_ready, exec_rti] at steps
    rw [memRead_status_of_byte coming]
    refine ⟨_, steps, rfl, ?_, ⟨rfl, rfl, rfl⟩, ⟨rfl, rfl⟩, fun _ _ => rfl, rfl, noRoutine, rfl, nofun, nofun,
      fun _ _ same => ⟨rfl, ?_, (List.cons.inj same).2, rfl⟩⟩
    · rw [ready]; rfl
    · rw [raiseFault_eq, State.setPc_pc, word_add_one_sub_one]

/-- Settles O33: the three forms store at `pc`, which is where the next step fetches (R46). -/
theorem storedWordIsFetchedByTheNextStep : Obligations.StoredWordIsFetchedByTheNextStep := by
  intro i sr s canonical running noRoutine notStatus storesAtPc
  have execs : exec i s = .next (memWrite s.pc (s.reg sr) s) := by
    obtain rfl | ⟨baseR, off, rfl, address⟩ | ⟨off, rfl, plain, pointer⟩ := storesAtPc
    · rw [exec_st, pcRelative9_eq]
      simp
    · rw [exec_str, baseOffset6_eq, address]
    · rw [exec_sti, pcRelative9_eq, memRead_pure plain, pointer]
  refine ⟨_, execs, ?_⟩
  rw [step_plain (s := memWrite s.pc (s.reg sr) s) running noRoutine notStatus]
  simp only [memWrite_cfg, memWrite_mem, memWrite_pc, Memory.read_write_same canonical]

/-- `withFetchWord` moves `pc` off `KBSR_ADDR`, whose stored word no fetch answers, and nowhere else. -/
theorem exists_withFetchWord_eq (s : State) {w : Nat} (word : w < 65536) :
    ∃ a, a ≠ s.cfg.kbsrAddr ∧ (s.pc ≠ s.cfg.kbsrAddr → a = s.pc) ∧
      s.withFetchWord 16 w = ((memWrite a (BitVec.ofNat 16 w) (s.setPc a)).setRun .running).setRoutine none := by
  have modulo : w % 2 ^ 16 = w := Nat.mod_eq_of_lt word
  refine ⟨if s.pc = s.cfg.kbsrAddr then add16 s.pc 1 else s.pc, ?apart, fun notStatus => if_neg notStatus, ?placed⟩
  case apart =>
    split_ifs with atStatus
    · simp [add16, ← atStatus]
    · exact atStatus
  case placed => rw [State.withFetchWord, modulo]

/-- Settles O8: the word is stored where the next step fetches it, and that is not `KBSR_ADDR` (log 13). -/
theorem fetchWordIsWhatTheNextStepRuns : Obligations.FetchWordIsWhatTheNextStepRuns := by
  intro s w canonical word
  obtain ⟨a, apart, plain, placed⟩ := exists_withFetchWord_eq s word
  have fetched : (s.withFetchWord 16 w).mem.read a = BitVec.ofNat 16 w := by
    rw [placed]
    exact Memory.read_write_same canonical _ _
  rw [placed] at fetched ⊢
  refine ⟨_, (step_plain rfl rfl apart).trans (congrArg (fun v => exec (decode s.cfg v) _) fetched), fun _ _ => rfl,
    rfl, ⟨rfl, rfl, rfl⟩, ⟨rfl, rfl⟩, rfl, rfl, fun notStatus => ?atPc⟩
  case atPc =>
    obtain rfl := plain notStatus
    exact ⟨rfl, fun _ other => Memory.read_write_other _ _ other⟩

end Sys2Proof.Machine
end

section
namespace Sys2Proof.Machine

/-! ## What an instruction and a step can do, said once -/

/-! ### What every operation keeps -/

/-- What every instruction keeps: the parameters, the canonical form, the order of the host's answers and of the output
(R22). -/
structure StreamFrame (s t : State) : Prop where
  cfg : t.cfg = s.cfg
  canonical : s.mem.wf → t.mem.wf
  input : t.input <:+ s.input ∨ t.input <:+ s.inputCycle
  inputCycle : t.inputCycle = s.inputCycle
  consumed : s.consumed ≤ t.consumed
  output : s.output <+: t.output

theorem StreamFrame.refl (s : State) : StreamFrame s s where
  cfg := rfl
  canonical := id
  input := .inl (List.suffix_refl _)
  inputCycle := rfl
  consumed := Nat.le_refl _
  output := List.prefix_refl _

theorem StreamFrame.trans {s t u : State} (first : StreamFrame s t) (second : StreamFrame t u) : StreamFrame s u where
  cfg := second.cfg.trans first.cfg
  canonical := second.canonical ∘ first.canonical
  input := second.input.elim (fun listed => first.input.imp listed.trans listed.trans)
    fun repeated => .inr (first.inputCycle ▸ repeated)
  inputCycle := second.inputCycle.trans first.inputCycle
  consumed := first.consumed.trans second.consumed
  output := first.output.trans second.output

/-- Consumed bytes are counted up. -/
theorem memRead_consumed_le (a : Word) (s : State) : s.consumed ≤ (memRead a s).2.consumed := by
  obtain ⟨-, reads⟩ | ⟨-, -, reads⟩ | ⟨rest, -, -, reads⟩ | ⟨b, rest, -, -, reads⟩ := memRead_cases a s <;>
    simp only [reads, memWrite_consumed, State.setInput_consumed, State.consume_consumed]
  all_goals omega

theorem memRead_streamFrame (a : Word) (s : State) : StreamFrame s (memRead a s).2 where
  cfg := memRead_cfg a s
  canonical := memRead_wf a
  input := memRead_input_suffix a s
  inputCycle := memRead_inputCycle a s
  consumed := memRead_consumed_le a s
  output := by rw [memRead_output]

/-- A `StringFrame` says the same but for the count of consumed bytes. -/
theorem StringFrame.streamFrame {s t : State} (frame : StringFrame s t) (consumed : s.consumed ≤ t.consumed) :
    StreamFrame s t :=
  ⟨frame.cfg, frame.canonical, frame.input, frame.inputCycle, consumed, frame.output⟩

theorem putsLoop_consumed_le (n : Nat) (a : Word) (s : State) : s.consumed ≤ (putsLoop n a s).consumed := by
  induction n generalizing a s with
  | zero => exact Nat.le_refl _
  | succ n ih =>
    simp only [putsLoop]
    split
    · exact memRead_consumed_le a s
    · exact (memRead_consumed_le a s).trans (ih _ ((memRead a s).2.out _))

theorem putspLoop_consumed_le (n : Nat) (w a : Word) (s : State) : s.consumed ≤ (putspLoop n w a s).consumed := by
  induction n generalizing w a s with
  | zero =>
    simp only [putspLoop]
    split <;> exact Nat.le_refl _
  | succ n ih =>
    simp only [putspLoop]
    split
    · exact Nat.le_refl _
    · refine (memRead_consumed_le (add16 a 1) (s.out (lowByte w))).trans (le_of_eq_of_le ?_ (ih _ _ _))
      split <;> rfl

/-! ### What the trap routines keep -/

/-- What a trap routine that does not end the run leaves unchanged, the registers `ds` excepted. -/
structure RoutineFrame (ds : List Reg) (s t : State) : Prop extends StreamFrame s t where
  regs : RegsKeptBut ds s t
  pc : t.pc = s.pc
  cond : t.cond = s.cond
  memory : MemoryKeptButKeyboard s t
  run : t.run = s.run
  fault : t.fault = s.fault
  flushed : t.flushed = s.flushed

theorem RoutineFrame.refl (ds : List Reg) (s : State) : RoutineFrame ds s s where
  toStreamFrame := .refl s
  regs _ _ := rfl
  pc := rfl
  cond := rfl
  memory _ _ _ := rfl
  run := rfl
  fault := rfl
  flushed := rfl

theorem RoutineFrame.trans {ds : List Reg} {s t u : State} (first : RoutineFrame ds s t)
    (second : RoutineFrame ds t u) : RoutineFrame ds s u where
  toStreamFrame := first.toStreamFrame.trans second.toStreamFrame
  regs r hr := (second.regs r hr).trans (first.regs r hr)
  pc := second.pc.trans first.pc
  cond := second.cond.trans first.cond
  memory a notStatus notData :=
    (second.memory a (first.cfg ▸ notStatus) (first.cfg ▸ notData)).trans (first.memory a notStatus notData)
  run := second.run.trans first.run
  fault := second.fault.trans first.fault
  flushed := second.flushed.trans first.flushed

/-- A routine that keeps all registers keeps all but some. -/
theorem RoutineFrame.weaken {s t : State} (frame : RoutineFrame [] s t) (ds : List Reg) : RoutineFrame ds s t :=
  { frame with regs := fun r _ => frame.regs r List.not_mem_nil }

theorem StringFrame.routineFrame {s t : State} (frame : StringFrame s t) (consumed : s.consumed ≤ t.consumed) :
    RoutineFrame [] s t where
  toStreamFrame := frame.streamFrame consumed
  regs r _ := congrArg (RegFile.get · r) frame.regs
  pc := frame.pc
  cond := frame.cond
  memory := frame.memory
  run := frame.run
  fault := frame.fault
  flushed := frame.flushed

theorem putsLoop_routineFrame (n : Nat) (a : Word) (s : State) : RoutineFrame [] s (putsLoop n a s) :=
  (stringFrame_putsLoop n a s).routineFrame (putsLoop_consumed_le n a s)

theorem putspLoop_routineFrame (n : Nat) (w a : Word) (s : State) : RoutineFrame [] s (putspLoop n w a s) :=
  (stringFrame_putspLoop n w a s).routineFrame (putspLoop_consumed_le n w a s)

theorem memRead_routineFrame (a : Word) (s : State) : RoutineFrame [] s (memRead a s).2 :=
  (stringFrame_memRead a s).routineFrame (memRead_consumed_le a s)

theorem State.outAll_routineFrame (ds : List Reg) (s : State) (bs : List Byte) : RoutineFrame ds s (s.outAll bs) :=
  { RoutineFrame.refl ds s with output := List.prefix_append _ _ }

theorem State.out_routineFrame (ds : List Reg) (s : State) (b : Byte) : RoutineFrame ds s (s.out b) :=
  s.outAll_routineFrame ds [b]

theorem State.setRoutine_routineFrame (ds : List Reg) (s : State) (w : Option Routine) :
    RoutineFrame ds s (s.setRoutine w) :=
  { RoutineFrame.refl ds s with }

theorem State.setReg_routineFrame (s : State) (r : Reg) (v : Word) : RoutineFrame [r] s (s.setReg r v) :=
  { RoutineFrame.refl [r] s with regs := fun _ other => s.setReg_reg_other v (List.ne_of_not_mem_cons other) }

/-- The byte that `InRead` answers is consumed: what follows it in its list is what is left. -/
theorem inRead_eq_some {s t : State} {b : Byte} (read : inRead s = some (b, t)) :
    ∃ rest, t = s.consume rest ∧ (rest <:+ s.input ∨ rest <:+ s.inputCycle) := by
  obtain ⟨-, -, never⟩ | ⟨n, c, rest, listed, reads⟩ | ⟨n, c, rest, -, repeated, reads⟩ := inRead_cases s
  · cases never.symm.trans read
  · cases reads.symm.trans read
    exact ⟨rest, rfl, .inl (listed ▸ (List.suffix_cons _ _).trans (List.suffix_append _ _))⟩
  · cases reads.symm.trans read
    exact ⟨rest, rfl, .inr (repeated ▸ (List.suffix_cons _ _).trans (List.suffix_append _ _))⟩

theorem inRead_routineFrame (ds : List Reg) {s t : State} {b : Byte} (read : inRead s = some (b, t)) :
    RoutineFrame ds s t := by
  obtain ⟨rest, rfl, left⟩ := inRead_eq_some read
  exact { RoutineFrame.refl ds s with input := left, consumed := Nat.le_succ _ }

theorem readIntoR0_routineFrame (s : State) : RoutineFrame [.r0] s (readIntoR0 s) := by
  unfold readIntoR0
  split
  next b t read => exact (inRead_routineFrame _ read).trans (t.setReg_routineFrame .r0 _)
  next => exact s.setRoutine_routineFrame _ _

theorem readEchoIntoR0_routineFrame (s : State) : RoutineFrame [.r0] s (readEchoIntoR0 s) := by
  unfold readEchoIntoR0
  split
  next b t read =>
    exact ((inRead_routineFrame _ read).trans (t.out_routineFrame _ b)).trans (State.setReg_routineFrame _ .r0 _)
  next => exact s.setRoutine_routineFrame _ _

/-! ### What an instruction does -/

/-- `t` is what any number of reads of memory leave of `s`. -/
inductive Reads (s : State) : State → Prop where
  | none : Reads s s
  | read (a : Word) {t : State} (before : Reads s t) : Reads s (memRead a t).2

theorem Reads.loadFrame {s t : State} (reads : Reads s t) (ds : List Reg) : LoadFrame ds s t := by
  induction reads with
  | none => exact ⟨fun _ _ _ => rfl, fun _ _ => rfl, rfl, ⟨rfl, rfl, rfl, rfl⟩, ⟨rfl, rfl⟩⟩
  | read a _ ih => exact ih.trans (memRead_loadFrame ds a _)

theorem Reads.streamFrame {s t : State} (reads : Reads s t) : StreamFrame s t := by
  induction reads with
  | none => exact .refl s
  | read a _ ih => exact ih.trans (memRead_streamFrame a _)

theorem Reads.cond {s t : State} (reads : Reads s t) : t.cond = s.cond := by
  induction reads with
  | none => rfl
  | read a _ ih => exact (memRead_cond a _).trans ih

/-- The eight things that an instruction `i` can do to a state: a flagged write after reads (41, 43), a jump without or
with a link (42), a store after reads (44), a routine that prints, that reads the input or that halts (45), a fault
(R161). -/
inductive Performs (i : Instr) (s : State) : State → Prop where
  | writes {dr : Reg} {u : State} (v : Word) (notTrap : i.opcode ≠ .trap) (dest : flagDest i = some dr)
      (reads : Reads s u) : Performs i s (u.writeFlagged dr v)
  | jumps (a : Word) (notTrap : i.opcode ≠ .trap) (dest : flagDest i = none) : Performs i s (s.setPc a)
  | calls (a : Word) (notTrap : i.opcode ≠ .trap) (dest : flagDest i = none) :
      Performs i s ((s.setReg .r7 s.pc).setPc a)
  | stores {u : State} (a v : Word) (store : isStore i = true) (notTrap : i.opcode ≠ .trap) (dest : flagDest i = none)
      (reads : Reads s u) : Performs i s (memWrite a v u)
  | prints {t : State} (isRoutine : i = .out ∨ i = .puts ∨ i = .putsp) (frame : RoutineFrame [] s t) : Performs i s t
  | inputs {t : State} (isRoutine : i = .getc ∨ i = .in_) (frame : RoutineFrame [.r0] s t) : Performs i s t
  | halts (isHalt : i = .halt) : Performs i s ((s.outAll s.cfg.haltNotice).outFlush.setRun .halted)
  | faults {cause : FaultCause} (raises : Raises i cause) : Performs i s (raiseFault cause s)

/-- Every instruction does one of the eight. -/
theorem exec_performs (i : Instr) (s : State) : ∃ t, exec i s = .next t ∧ Performs i s t := by
  cases i with
  | addReg dr sr1 sr2 => exact ⟨_, exec_addReg dr sr1 sr2 s, .writes _ nofun rfl .none⟩
  | addImm dr sr1 imm5 => exact ⟨_, exec_addImm dr sr1 imm5 s, .writes _ nofun rfl .none⟩
  | andReg dr sr1 sr2 => exact ⟨_, exec_andReg dr sr1 sr2 s, .writes _ nofun rfl .none⟩
  | andImm dr sr1 imm5 => exact ⟨_, exec_andImm dr sr1 imm5 s, .writes _ nofun rfl .none⟩
  | not dr sr => exact ⟨_, exec_not dr sr s, .writes _ nofun rfl .none⟩
  | br n z p off => exact ⟨_, exec_br n z p off s, .jumps _ nofun rfl⟩
  | jmp baseR => exact ⟨_, exec_jmp baseR s, .jumps _ nofun rfl⟩
  | jsr off => exact ⟨_, exec_jsr off s, .calls _ nofun rfl⟩
  | jsrr baseR => exact ⟨_, exec_jsrr baseR s, .calls _ nofun rfl⟩
  | ld dr off => exact ⟨_, exec_ld dr off s, .writes _ nofun rfl (.read _ .none)⟩
  | ldi dr off => exact ⟨_, exec_ldi dr off s, .writes _ nofun rfl (.read _ (.read _ .none))⟩
  | ldr dr baseR off => exact ⟨_, exec_ldr dr baseR off s, .writes _ nofun rfl (.read _ .none)⟩
  | lea dr off => exact ⟨_, exec_lea dr off s, .writes _ nofun rfl .none⟩
  | st sr off => exact ⟨_, exec_st sr off s, .stores _ _ rfl nofun rfl .none⟩
  | sti sr off => exact ⟨_, exec_sti sr off s, .stores _ _ rfl nofun rfl (.read _ .none)⟩
  | str sr baseR off => exact ⟨_, exec_str sr baseR off s, .stores _ _ rfl nofun rfl .none⟩
  | getc => exact ⟨_, rfl, .inputs (.inl rfl) (readIntoR0_routineFrame s)⟩
  | out => exact ⟨_, exec_out s, .prints (.inl rfl) (s.out_routineFrame _ _)⟩
  | puts => exact ⟨_, rfl, .prints (.inr (.inl rfl)) (putsLoop_routineFrame _ _ s)⟩
  | in_ => exact ⟨_, rfl, .inputs (.inr rfl) ((s.outAll_routineFrame _ _).trans (readEchoIntoR0_routineFrame _))⟩
  | putsp =>
    exact ⟨_, rfl, .prints (.inr (.inr rfl)) ((memRead_routineFrame _ s).trans (putspLoop_routineFrame _ _ _ _))⟩
  | halt => exact ⟨_, exec_halt s, .halts rfl⟩
  | trap code => exact ⟨_, exec_trap code s, .faults (.inr (.inr ⟨code, rfl, rfl⟩))⟩
  | rti => exact ⟨_, exec_rti s, .faults (.inl ⟨rfl, rfl⟩)⟩
  | res => exact ⟨_, exec_res s, .faults (.inr (.inl ⟨rfl, rfl⟩))⟩

theorem performs_of_exec {i : Instr} {s t : State} (execs : exec i s = .next t) : Performs i s t := by
  obtain ⟨u, execs', performs⟩ := exec_performs i s
  cases execs.symm.trans execs'
  exact performs

theorem Raises.flagDest {i : Instr} {cause : FaultCause} (raises : Raises i cause) : flagDest i = none := by
  obtain ⟨rfl, -⟩ | ⟨rfl, -⟩ | ⟨code, rfl, -⟩ := raises <;> rfl

theorem Performs.streamFrame {i : Instr} {s t : State} (performs : Performs i s t) : StreamFrame s t := by
  cases performs with
  | writes v _ _ reads => exact reads.streamFrame.trans { StreamFrame.refl _ with }
  | jumps a => exact { StreamFrame.refl s with }
  | calls a => exact { StreamFrame.refl s with }
  | stores a v _ _ _ reads =>
    exact reads.streamFrame.trans { StreamFrame.refl _ with canonical := fun wf => Memory.write_wf wf a v }
  | prints _ frame => exact frame.toStreamFrame
  | inputs _ frame => exact frame.toStreamFrame
  | halts => exact { StreamFrame.refl s with output := List.prefix_append _ _ }
  | faults => exact { StreamFrame.refl s with }

/-! ### The rules of the whole machine -/

/-- Settles O47: the flagged write is the only one of the eight that changes a flag (R17). -/
theorem flagsFollowFlaggedWritesOnly : Obligations.FlagsFollowFlaggedWritesOnly := by
  intro i s t execs
  suffices flags : (flagDest i = none ∧ t.cond = s.cond) ∨
      ∃ dr, flagDest i = some dr ∧ RegsKeptBut [dr] s t ∧ IsFlagOf (t.reg dr) t.cond by
    obtain ⟨dest, cond⟩ | ⟨dr, dest, regs, flag⟩ := flags
    · exact ⟨fun _ => cond, fun dr written => absurd (dest.symm.trans written) nofun⟩
    · exact ⟨fun unwritten => absurd (unwritten.symm.trans dest) nofun,
        fun dr' written => Option.some.inj (dest.symm.trans written) ▸ ⟨regs, flag⟩⟩
  cases performs_of_exec execs with
  | @writes dr u v _ dest reads =>
    obtain ⟨-, regs, -⟩ := (reads.loadFrame [dr]).trans (u.writeFlagged_loadFrame dr v)
    exact .inr ⟨dr, dest, regs, (u.writeFlagged_flag_and_frame dr v).1⟩
  | jumps a _ dest => exact .inl ⟨dest, rfl⟩
  | calls a _ dest => exact .inl ⟨dest, rfl⟩
  | stores a v _ _ dest reads => exact .inl ⟨dest, reads.cond⟩
  | prints isRoutine frame => exact .inl ⟨by obtain rfl | rfl | rfl := isRoutine <;> rfl, frame.cond⟩
  | inputs isRoutine frame => exact .inl ⟨by obtain rfl | rfl := isRoutine <;> rfl, frame.cond⟩
  | halts isHalt => exact .inl ⟨by rw [isHalt]; rfl, rfl⟩
  | faults raises => exact .inl ⟨raises.flagDest, rfl⟩

/-- Settles O49: of the eight only a store writes a word elsewhere than in the keyboard cells. -/
theorem onlyStoresChangeOrdinaryMemory : Obligations.OnlyStoresChangeOrdinaryMemory := by
  intro i s t execs notStore
  cases performs_of_exec execs with
  | writes v _ _ reads => exact (reads.loadFrame []).1
  | jumps | calls | halts | faults => exact fun _ _ _ => rfl
  | stores a v store => cases store.symm.trans notStore
  | prints _ frame => exact frame.memory
  | inputs _ frame => exact frame.memory

/-- Settles O50: every one of the eight keeps the order of the streams, and those that do output are trap routines. -/
theorem streamsAreUsedInOrder : Obligations.StreamsAreUsedInOrder := by
  intro i s t execs
  have performs := performs_of_exec execs
  obtain ⟨-, -, input, inputCycle, consumed, output⟩ := performs.streamFrame
  refine ⟨input, inputCycle, consumed, output, fun notTrap => ?_⟩
  cases performs with
  | writes v _ _ reads =>
    obtain ⟨-, -, -, -, output⟩ := reads.loadFrame []
    exact ⟨output.output, output.flushed⟩
  | jumps | calls | faults => exact ⟨rfl, rfl⟩
  | stores a v _ _ _ reads =>
    obtain ⟨-, -, -, -, output⟩ := reads.loadFrame []
    exact ⟨output.output, output.flushed⟩
  | prints isRoutine => obtain rfl | rfl | rfl := isRoutine <;> exact absurd rfl notTrap
  | inputs isRoutine => obtain rfl | rfl := isRoutine <;> exact absurd rfl notTrap
  | halts isHalt => exact absurd (congrArg Instr.opcode isHalt) notTrap

/-- Settles O44: five routines keep the frame of a routine; HALT changes only output, marker and run state (R138). -/
theorem trapRoutinesKeepRegistersAndPc : Obligations.TrapRoutinesKeepRegistersAndPc := by
  intro i s t isRoutine execs
  have isTrap : i.opcode = .trap := by obtain rfl | rfl | rfl | rfl | rfl | rfl := isRoutine <;> rfl
  cases performs_of_exec execs with
  | writes _ notTrap | jumps _ notTrap | calls _ notTrap | stores _ _ _ notTrap => exact absurd isTrap notTrap
  | prints _ frame =>
    exact ⟨frame.pc, frame.cond, (frame.weaken _).regs, fun _ _ => frame.regs .r0 List.not_mem_nil, frame.memory,
      frame.fault⟩
  | inputs isInput frame =>
    exact ⟨frame.pc, frame.cond, frame.regs, fun notGetc notIn => (isInput.elim notGetc notIn).elim, frame.memory,
      frame.fault⟩
  | halts => exact ⟨rfl, rfl, fun _ _ => rfl, fun _ _ => rfl, fun _ _ _ => rfl, rfl⟩
  | faults raises =>
    obtain ⟨rfl, -⟩ | ⟨rfl, -⟩ | ⟨code, rfl, -⟩ := raises
    · cases isTrap
    · cases isTrap
    · simp at isRoutine

/-! ### What a step does -/

/-- A routine that runs on keeps the frame of a routine; only GETC and IN write R0. -/
theorem resume_routineFrame (w : Routine) (s : State) :
    RoutineFrame [.r0] s (resume w s) ∧ (w ≠ .getc → w ≠ .in_ → RoutineFrame [] s (resume w s)) := by
  have cleared (ds : List Reg) := s.setRoutine_routineFrame ds none
  cases w with
  | getc => exact ⟨(cleared _).trans (readIntoR0_routineFrame _), fun notGetc => absurd rfl notGetc⟩
  | in_ => exact ⟨(cleared _).trans (readEchoIntoR0_routineFrame _), fun _ notIn => absurd rfl notIn⟩
  | puts a =>
    have frame := (cleared []).trans (putsLoop_routineFrame (readBound s) a _)
    exact ⟨frame.weaken _, fun _ _ => frame⟩
  | putsp w a =>
    have frame := (cleared []).trans (putspLoop_routineFrame (readBound s) w a _)
    exact ⟨frame.weaken _, fun _ _ => frame⟩

/-- A step in three cases: a machine that has stopped stutters, a routine runs on, or the fetched instruction is
executed (R80). -/
theorem step_cases {s t : State} (steps : step s = .next t) :
    (s.run ≠ .running ∧ t = s) ∨
    (s.run = .running ∧ ∃ w, s.routine = some w ∧ t = resume w s) ∨
    (s.run = .running ∧ s.routine = none ∧
      Performs (decode s.cfg (memRead s.pc s).1) ((memRead s.pc s).2.setPc (s.pc + 1)) t) := by
  by_cases running : s.run = .running
  · refine .inr ?_
    cases runsOn : s.routine with
    | none => exact .inr ⟨running, rfl, performs_of_exec (step_of_running running runsOn ▸ steps)⟩
    | some w =>
      cases steps.symm.trans (step_of_routine running runsOn)
      exact .inl ⟨running, w, rfl, rfl⟩
  · cases steps.symm.trans (step_of_not_running running)
    exact .inl ⟨running, rfl⟩

theorem fetch_streamFrame (s : State) : StreamFrame s ((memRead s.pc s).2.setPc (s.pc + 1)) :=
  (memRead_streamFrame s.pc s).trans { StreamFrame.refl _ with }

/-- Settles O52: the parameters are kept by whatever a step does. -/
theorem stepsKeepTheParameters : Obligations.StepsKeepTheParameters := by
  intro s t steps
  obtain ⟨-, rfl⟩ | ⟨-, w, -, rfl⟩ | ⟨-, -, performs⟩ := step_cases steps
  · rfl
  · exact (resume_routineFrame w s).1.cfg
  · exact ((fetch_streamFrame s).trans performs.streamFrame).cfg

/-! ### The invariant -/

/-- While RUNNING there is no record, so what changes neither run state, record nor marker keeps the invariant. -/
theorem State.Inv.of_running {s t : State} (inv : s.Inv) (running : s.run = .running) (frame : StreamFrame s t)
    (run : t.run = s.run) (fault : t.fault = s.fault) (flushed : t.flushed = s.flushed) : t.Inv := by
  have running' : t.run = .running := run.trans running
  have noRecord : t.fault = none := by
    rw [fault, ← Option.not_isSome_iff_eq_none, inv.recordIffFaulted, running]
    nofun
  exact {
    memory := frame.canonical inv.memory
    recordIffFaulted := by simp [noRecord, running']
    record := by simp [noRecord]
    runsOn := fun _ => running'
    flush := ⟨flushed ▸ inv.flush.1.trans frame.output.length_le, by simp [running']⟩
    parameters := frame.cfg ▸ inv.parameters }

/-- The cause that a well-formed instruction raises is reachable (R160). -/
theorem Raises.reachable {i : Instr} {cause : FaultCause} (raises : Raises i cause) {c : Config}
    (wellFormed : i.wf c = true) : cause = .reservedOpcode 0b1000 ∨ cause = .reservedOpcode 0b1101 ∨
      ∃ code, cause = .unknownTrap code ∧ code ∉ c.trapNumbers := by
  obtain ⟨-, rfl⟩ | ⟨-, rfl⟩ | ⟨code, rfl, rfl⟩ := raises
  · exact .inl rfl
  · exact .inr (.inl rfl)
  · exact .inr (.inr ⟨code, rfl, by simpa [Instr.wf, Config.unknownTrap] using wellFormed⟩)

/-- A well-formed instruction keeps the invariant. -/
theorem Performs.inv {i : Instr} {s t : State} (performs : Performs i s t) (inv : s.Inv) (running : s.run = .running)
    (noRoutine : s.routine = none) (wellFormed : i.wf s.cfg = true) : t.Inv := by
  have frame := performs.streamFrame
  have noneRunsOn : ¬s.routine.isSome = true := by rw [noRoutine]; nofun
  cases performs with
  | writes v _ _ reads =>
    obtain ⟨-, -, -, control, output⟩ := reads.loadFrame []
    exact inv.of_running running frame control.run control.fault output.flushed
  | jumps | calls => exact inv.of_running running frame rfl rfl rfl
  | stores a v _ _ _ reads =>
    obtain ⟨-, -, -, control, output⟩ := reads.loadFrame []
    exact inv.of_running running frame control.run control.fault output.flushed
  | prints _ routine => exact inv.of_running running frame routine.run routine.fault routine.flushed
  | inputs _ routine => exact inv.of_running running frame routine.run routine.fault routine.flushed
  | halts =>
    have noRecord : ¬s.fault.isSome = true := by rw [inv.recordIffFaulted, running]; nofun
    exact {
      memory := inv.memory
      recordIffFaulted := ⟨fun record => absurd record noRecord, nofun⟩
      record := fun f record => absurd (Option.isSome_of_eq_some record) noRecord
      runsOn := fun runsOn => absurd runsOn noneRunsOn
      flush := ⟨Nat.le_refl _, fun _ => rfl⟩
      parameters := inv.parameters }
  | @faults cause raises =>
    exact {
      memory := inv.memory
      recordIffFaulted := ⟨fun _ => rfl, fun _ => rfl⟩
      record := by
        rintro f ⟨⟩
        exact ⟨(BitVec.sub_add_cancel _ _).symm, raises.reachable wellFormed⟩
      runsOn := fun runsOn => absurd runsOn noneRunsOn
      flush := ⟨inv.flush.1, nofun⟩
      parameters := inv.parameters }

/-- Settles O53: a stutter changes nothing, a routine that runs on and the fetch keep what `State.Inv.of_running` asks
for, and the fetched instruction is well formed. -/
theorem stepsKeepTheInvariant : Obligations.StepsKeepTheInvariant := by
  intro s t inv steps
  obtain ⟨-, rfl⟩ | ⟨running, w, -, rfl⟩ | ⟨running, noRoutine, performs⟩ := step_cases steps
  · exact inv
  · have frame := (resume_routineFrame w s).1
    exact inv.of_running running frame.toStreamFrame frame.run frame.fault frame.flushed
  · refine performs.inv ?fetched ((memRead_run s.pc s).trans running) ((memRead_routine s.pc s).trans noRoutine)
      ?wellFormed
    case fetched =>
      exact inv.of_running running (fetch_streamFrame s) (memRead_run s.pc s) (memRead_fault s.pc s)
        (memRead_flushed s.pc s)
    case wellFormed => exact memRead_cfg s.pc s ▸ decode_wf _ _

/-- The state before the first fetch meets the invariant, whatever the loader put in memory. -/
theorem State.init_setMem_inv {c : Config} (wf : c.wf) {m : Memory} (canonical : m.wf) :
    ((State.init c).setMem m).Inv where
  memory := canonical
  recordIffFaulted := ⟨nofun, nofun⟩
  record := nofun
  runsOn := nofun
  flush := ⟨Nat.le_refl _, nofun⟩
  parameters := wf

/-- Settles O54: reset is the initial state of the default parameters, with empty memory. -/
theorem resetMeetsTheInvariant : Obligations.ResetMeetsTheInvariant :=
  State.init_setMem_inv (c := Config.default) (by decide) Memory.wf_nil

end Sys2Proof.Machine
end

section
namespace Sys2Proof.Machine

/-! ## 10_state.md: only BR reads the flags -/

/-! ### No operation reads the flags -/

theorem memRead_setCond (a : Word) (s : State) (c : Cond) :
    memRead a (s.setCond c) = ((memRead a s).1, (memRead a s).2.setCond c) := by
  have coming' : (s.setCond c).coming = s.coming := rfl
  obtain ⟨elsewhere, reads⟩ | ⟨rfl, coming, reads⟩ | ⟨rest, rfl, coming, reads⟩ | ⟨b, rest, rfl, coming, reads⟩ :=
    memRead_cases a s <;> rw [reads]
  · exact memRead_pure elsewhere
  · exact memRead_status_of_no_answer (coming'.trans coming)
  · exact memRead_status_of_no_byte (coming'.trans coming)
  · exact memRead_status_of_byte (coming'.trans coming)

theorem loadInto_setCond (dr : Reg) (ea : Word) (s : State) (c : Cond) :
    loadInto dr ea (s.setCond c) = loadInto dr ea s := by
  rw [loadInto, memRead_setCond]
  rfl

theorem inRead_setCond (s : State) (c : Cond) :
    inRead (s.setCond c) = (inRead s).map fun r => (r.1, r.2.setCond c) := by
  simp only [inRead, State.setCond_input, State.setCond_inputCycle]
  cases nextByte s.input with
  | some r => rfl
  | none => cases nextByte s.inputCycle <;> rfl

theorem readIntoR0_setCond (s : State) (c : Cond) : readIntoR0 (s.setCond c) = (readIntoR0 s).setCond c := by
  simp only [readIntoR0, inRead_setCond]
  cases inRead s <;> rfl

theorem readEchoIntoR0_setCond (s : State) (c : Cond) :
    readEchoIntoR0 (s.setCond c) = (readEchoIntoR0 s).setCond c := by
  simp only [readEchoIntoR0, inRead_setCond]
  cases inRead s <;> rfl

theorem putsLoop_setCond (n : Nat) (a : Word) (s : State) (c : Cond) :
    putsLoop n a (s.setCond c) = (putsLoop n a s).setCond c := by
  induction n generalizing a s with
  | zero => rfl
  | succ n ih =>
    simp only [putsLoop, memRead_setCond]
    split
    · rfl
    · exact ih _ ((memRead a s).2.out _)

theorem putspLoop_setCond (n : Nat) (w a : Word) (s : State) (c : Cond) :
    putspLoop n w a (s.setCond c) = (putspLoop n w a s).setCond c := by
  have out_setCond (t : State) (b : Byte) : (t.setCond c).out b = (t.out b).setCond c := rfl
  induction n generalizing w a s with
  | zero =>
    simp only [putspLoop]
    split <;> rfl
  | succ n ih =>
    simp only [putspLoop, out_setCond, memRead_setCond]
    split
    · rfl
    · split <;> exact ih _ _ _

/-! ### The routines as their loops (R131 to R135) -/

theorem exec_getc (s : State) : exec .getc s = .next (readIntoR0 s) := rfl

theorem exec_in (s : State) : exec .in_ s = .next (readEchoIntoR0 (s.outAll s.cfg.inPrompt)) := rfl

theorem exec_puts (s : State) : exec .puts s = .next (putsLoop (readBound s) (s.reg .r0) s) := rfl

theorem exec_putsp (s : State) : exec .putsp s =
    .next (putspLoop (readBound s) (memRead (s.reg .r0) s).1 (s.reg .r0) (memRead (s.reg .r0) s).2) := rfl

/-! ### The obligation -/

/-- Settles O48: every operation passes `cond` on unread, and a flagged write replaces it (R17). -/
theorem onlyBranchReadsTheFlags : Obligations.OnlyBranchReadsTheFlags := by
  intro i s t c notBr execs
  suffices carried : (setsFlags i = true ∧ exec i (s.setCond c) = .next t) ∨
      (setsFlags i = false ∧ exec i (s.setCond c) = .next (t.setCond c)) by
    obtain ⟨sets, execs'⟩ | ⟨keeps, execs'⟩ := carried
    · exact ⟨t, execs', fun _ => rfl, fun keeps => absurd (sets.symm.trans keeps) nofun⟩
    · exact ⟨_, execs', fun sets => absurd (sets.symm.trans keeps) nofun, fun _ => rfl⟩
  cases i with
  | br => exact absurd rfl notBr
  | addReg | addImm | andReg | andImm | not | lea =>
    cases execs
    exact .inl ⟨rfl, rfl⟩
  | ld | ldr =>
    cases execs
    exact .inl ⟨rfl, congrArg Host.Outcome.next (loadInto_setCond _ _ s c)⟩
  | ldi dr off =>
    cases execs
    refine .inl ⟨rfl, ?_⟩
    rw [exec_ldi, show pcRelative9 (s.setCond c) off = pcRelative9 s off from rfl, memRead_setCond, loadInto_setCond]
  | jmp | jsr | jsrr | st | str | out | halt | trap | rti | res =>
    cases execs
    exact .inr ⟨rfl, rfl⟩
  | sti sr off =>
    cases execs
    refine .inr ⟨rfl, ?_⟩
    rw [exec_sti, show pcRelative9 (s.setCond c) off = pcRelative9 s off from rfl, memRead_setCond, memRead_reg]
    rfl
  | getc =>
    cases execs
    exact .inr ⟨rfl, congrArg Host.Outcome.next (readIntoR0_setCond s c)⟩
  | in_ =>
    cases execs
    exact .inr ⟨rfl, congrArg Host.Outcome.next (readEchoIntoR0_setCond (s.outAll _) c)⟩
  | puts =>
    cases execs
    exact .inr ⟨rfl, congrArg Host.Outcome.next (putsLoop_setCond _ _ s c)⟩
  | putsp =>
    cases execs
    refine .inr ⟨rfl, ?_⟩
    rw [exec_putsp, State.setCond_reg, memRead_setCond, putspLoop_setCond]
    rfl

end Sys2Proof.Machine
end

section
namespace Sys2Proof.Machine

/-! ## 45_trap.md: GETC and IN -/

/-! ### `InRead` by what the host has to answer (R139) -/

theorem inRead_of_nextByte {s : State} {b : Byte} {rest : List (Option Byte)} (next : NextByte s b rest) :
    inRead s = some (b, s.consume rest) := by
  obtain listed | ⟨noneListed, repeated⟩ := next
  · simp only [inRead, nextByte_eq_some.2 listed]
  · simp only [inRead, nextByte_eq_none.2 noneListed, nextByte_eq_some.2 repeated]

theorem inRead_of_noByteEver {s : State} (never : NoByteEver s) : inRead s = none := by
  simp only [inRead, nextByte_eq_none.2 never.1, nextByte_eq_none.2 never.2]

theorem readIntoR0_of_noByteEver {s : State} (never : NoByteEver s) : readIntoR0 s = s.setRoutine (some .getc) := by
  rw [readIntoR0, inRead_of_noByteEver never]

theorem readEchoIntoR0_of_noByteEver {s : State} (never : NoByteEver s) :
    readEchoIntoR0 s = s.setRoutine (some .in_) := by
  rw [readEchoIntoR0, inRead_of_noByteEver never]

/-! ### The obligations about a byte to come -/

/-- Settles O34: GETC is one `InRead` and one write of R0 (R131). -/
theorem getcReadsOneByte : Obligations.GetcReadsOneByte := by
  intro s b rest next
  have execs : exec .getc s = .next ((s.consume rest).setReg .r0 (zext8 b)) := by
    rw [exec_getc, readIntoR0, inRead_of_nextByte next]
  exact ⟨_, execs, (congrArg _ (State.setReg_reg_same _ _ _)).trans (zext8_toNat b), rfl, rfl, rfl,
    fun r other => State.setReg_reg_other (s.consume rest) _ (List.ne_of_not_mem_cons other), rfl, rfl, fun _ => rfl,
    ⟨rfl, rfl, rfl, rfl⟩, ⟨rfl, rfl⟩⟩

/-- Settles O38: IN is the prompt, one `InRead`, the echo and one write of R0 (R134). -/
theorem inPromptsReadsAndEchoes : Obligations.InPromptsReadsAndEchoes := by
  intro s b rest next
  have execs : exec .in_ s =
      .next ((((s.outAll s.cfg.inPrompt).consume rest).out b).setReg .r0 (zext8 b)) := by
    rw [exec_in, readEchoIntoR0, inRead_of_nextByte (s := s.outAll s.cfg.inPrompt) next]
  exact ⟨_, execs, (congrArg _ (State.setReg_reg_same _ _ _)).trans (zext8_toNat b), rfl, rfl, rfl, rfl, rfl,
    fun r other => State.setReg_reg_other (((s.outAll s.cfg.inPrompt).consume rest).out b) _
      (List.ne_of_not_mem_cons other), rfl, rfl, fun _ => rfl, ⟨rfl, rfl, rfl, rfl⟩⟩

/-! ### Waiting for ever -/

/-- `t` is inside a GETC, or an IN after its prompt, to which no byte ever comes (R139). -/
structure Waits (t : State) : Prop where
  running : t.run = .running
  routine : t.routine = some .getc ∨ t.routine = some .in_
  never : NoByteEver t

/-- Following the wait changes nothing. -/
theorem Waits.step {t : State} (waits : Waits t) : step t = .next t := by
  have never : NoByteEver (t.setRoutine none) := waits.never
  obtain isGetc | isIn := waits.routine
  · rw [step_of_routine waits.running isGetc, resume, readIntoR0_of_noByteEver never]
    exact congrArg Host.Outcome.next (State.setRoutine_same isGetc)
  · rw [step_of_routine waits.running isIn, resume, readEchoIntoR0_of_noByteEver never]
    exact congrArg Host.Outcome.next (State.setRoutine_same isIn)

/-- Settles O45: without a byte the routine is left where it waits, and from there the step is again its `InRead`, with
whatever answers the host has then (R139). -/
theorem waitingForInputEndsWhenAByteComes : Obligations.WaitingForInputEndsWhenAByteComes := by
  intro i s isRead running noRoutine never
  have cleared (more : List (Option Byte)) : (s.supply more).setRoutine none = s.supply more :=
    State.setRoutine_same noRoutine
  obtain rfl | rfl := isRead
  · refine ⟨s.setRoutine (some .getc), congrArg Host.Outcome.next (readIntoR0_of_noByteEver never), running, nofun,
      fun _ => rfl, nofun, rfl, fun _ => rfl, rfl, rfl, ⟨rfl, rfl, rfl⟩, fun _ _ => rfl, rfl, rfl,
      Waits.step ⟨running, .inl rfl, never⟩, fun more => ?_⟩
    rw [step_of_routine (s := (s.setRoutine (some .getc)).supply more) running rfl, exec_getc, ← cleared more]
    rfl
  · refine ⟨(s.outAll s.cfg.inPrompt).setRoutine (some .in_),
      congrArg Host.Outcome.next (readEchoIntoR0_of_noByteEver never), running, nofun, nofun, fun _ => rfl, rfl, fun _ => rfl, rfl, rfl, ⟨rfl, rfl, rfl⟩, fun _ _ => rfl, rfl, rfl,
      Waits.step ⟨running, .inr rfl, never⟩, fun more => ?_⟩
    rw [step_of_routine (s := ((s.outAll s.cfg.inPrompt).setRoutine (some .in_)).supply more) running rfl, exec_in,
      ← cleared more]
    rfl

end Sys2Proof.Machine
end

section
namespace Sys2Proof.Machine

/-! ## 45_trap.md: PUTS and PUTSP -/

/-! ### Strings in memory -/

@[simp] theorem State.outAll_nil (s : State) : s.outAll [] = s := by
  cases s
  simp [State.outAll]

@[simp] theorem State.outAll_outAll (s : State) (bs cs : List Byte) :
    (s.outAll bs).outAll cs = s.outAll (bs ++ cs) := by
  simp [State.outAll]

theorem State.out_out (s : State) (b c : Byte) : (s.out b).out c = s.outAll [b, c] := s.outAll_outAll [b] [c]

theorem word_add_ofNat_succ (a : Word) (j : Nat) : a + BitVec.ofNat 16 (j + 1) = a + 1 + BitVec.ofNat 16 j := by
  rw [Nat.add_comm j 1, BitVec.ofNat_add, ← BitVec.add_assoc]
  rfl

theorem wordsAt_succ (m : Memory) (a : Word) (k : Nat) : wordsAt m a (k + 1) = m.read a :: wordsAt m (a + 1) k := by
  simp only [wordsAt, List.range_succ_eq_map, List.map_cons, List.map_map]
  exact congrArg₂ List.cons (congrArg m.read (BitVec.add_zero a))
    (List.map_congr_left fun j _ => congrArg m.read (word_add_ofNat_succ a j))

theorem StringAt.first_plain {s : State} {a : Word} {k : Nat} (string : StringAt s a k) : a ≠ s.cfg.kbsrAddr := by
  simpa using string.plain 0 (Nat.zero_le k)

theorem StringAt.first_zero {s : State} {a : Word} (string : StringAt s a 0) : s.mem.read a = 0 := by
  simpa using string.terminated

theorem StringAt.first_nonzero {s : State} {a : Word} {k : Nat} (string : StringAt s a (k + 1)) : s.mem.read a ≠ 0 :=
  string.nonzero _ (wordsAt_succ s.mem a k ▸ List.mem_cons_self)

/-- What follows the first word of a string is a string. -/
theorem StringAt.rest {s : State} {a : Word} {k : Nat} (string : StringAt s a (k + 1)) : StringAt s (a + 1) k where
  nonzero w hw := string.nonzero w (wordsAt_succ s.mem a k ▸ List.mem_cons_of_mem _ hw)
  terminated := word_add_ofNat_succ a k ▸ string.terminated
  plain j hj := word_add_ofNat_succ a j ▸ string.plain (j + 1) (Nat.succ_le_succ hj)

/-- Output takes no part in a string. -/
theorem StringAt.outAll {s : State} {a : Word} {k : Nat} (string : StringAt s a k) (bs : List Byte) :
    StringAt (s.outAll bs) a k := ⟨string.nonzero, string.terminated, string.plain⟩

/-- A string that does not lie over `KBSR_ADDR` is shorter than a lap of the memory. -/
theorem StringAt.length_lt {s : State} {a : Word} {k : Nat} (string : StringAt s a k) : k < 65536 := by
  by_contra! long
  refine string.plain (wordDistance a s.cfg.kbsrAddr) ((wordDistance_lt a _).le.trans long) ?_
  rw [wordDistance, BitVec.ofNat_toNat, BitVec.setWidth_eq, BitVec.add_comm, BitVec.sub_add_cancel]

theorem StringAt.length_lt_readBound {s : State} {a : Word} {k : Nat} (string : StringAt s a k) : k < readBound s := by
  have := string.length_lt
  rw [readBound]
  omega

/-! ### What PUTS and PUTSP print of a string (R133, R135) -/

theorem putsLoop_stop (n : Nat) {a : Word} {s : State} (zero : (memRead a s).1 = 0) :
    putsLoop (n + 1) a s = (memRead a s).2 := by
  simp only [putsLoop, if_pos zero]

theorem putsLoop_char (n : Nat) {a : Word} {s : State} (nonzero : (memRead a s).1 ≠ 0) :
    putsLoop (n + 1) a s = putsLoop n (a + 1) ((memRead a s).2.out (lowByte (memRead a s).1)) := by
  simp only [putsLoop, if_neg nonzero, add16]

theorem putspLoop_done (n : Nat) (a : Word) (s : State) : putspLoop n 0 a s = s := by
  cases n <;> simp only [putspLoop, if_true]

/-- The word is the last one and its high byte is zero (D12). -/
theorem putspLoop_half (n : Nat) {w a : Word} {s : State} (nonzero : w ≠ 0)
    (zero : (memRead (a + 1) (s.out (lowByte w))).1 = 0) (high : highByte w = 0) :
    putspLoop (n + 1) w a s = (memRead (a + 1) (s.out (lowByte w))).2 := by
  simp only [putspLoop, if_neg nonzero, add16, zero, high, and_self, if_true, putspLoop_done]

theorem putspLoop_both (n : Nat) {w a : Word} {s : State} (nonzero : w ≠ 0)
    (notLast : ¬((memRead (a + 1) (s.out (lowByte w))).1 = 0 ∧ highByte w = 0)) :
    putspLoop (n + 1) w a s = putspLoop n (memRead (a + 1) (s.out (lowByte w))).1 (a + 1)
      ((memRead (a + 1) (s.out (lowByte w))).2.out (highByte w)) := by
  simp only [putspLoop, if_neg nonzero, add16]
  exact congrArg _ (if_neg notLast)

theorem putsLoop_of_stringAt {n k : Nat} {a : Word} {s : State} (string : StringAt s a k) (enough : k < n) :
    putsLoop n a s = s.outAll ((wordsAt s.mem a k).map lowByte) := by
  obtain ⟨n, rfl⟩ : ∃ m, n = m + 1 := ⟨n - 1, by omega⟩
  have first := memRead_pure string.first_plain
  induction k generalizing n a s with
  | zero =>
    rw [putsLoop_stop n (by rw [first]; exact string.first_zero), first]
    exact s.outAll_nil.symm
  | succ k ih =>
    obtain ⟨n, rfl⟩ : ∃ m, n = m + 1 := ⟨n - 1, by omega⟩
    have rest := string.rest.outAll [lowByte (s.mem.read a)]
    rw [putsLoop_char (n + 1) (by rw [first]; exact string.first_nonzero), first, wordsAt_succ]
    exact (ih rest n (by omega) (memRead_pure rest.first_plain)).trans (s.outAll_outAll _ _)

theorem packedBytes_cons (w : Word) (ws : List Word) :
    packedBytes (w :: ws) =
      lowByte w :: ((if ws = [] ∧ highByte w = 0 then [] else [highByte w]) ++ packedBytes ws) := by
  cases ws with
  | nil =>
    simp only [packedBytes, true_and, List.append_nil]
    split <;> rfl
  | cons w' ws => simp [packedBytes]

/-- The word after the first of a string is zero exactly if the first is the last. -/
theorem StringAt.second_zero_iff {s : State} {a : Word} {k : Nat} (string : StringAt s a (k + 1)) :
    s.mem.read (a + 1) = 0 ↔ wordsAt s.mem (a + 1) k = [] := by
  cases k with
  | zero => exact iff_of_true string.rest.first_zero rfl
  | succ k => exact iff_of_false string.rest.first_nonzero (by rw [wordsAt_succ]; nofun)

theorem putspLoop_of_stringAt {n k : Nat} {a : Word} {s : State} (string : StringAt s a k) (enough : k ≤ n) :
    putspLoop n (s.mem.read a) a s = s.outAll (packedBytes (wordsAt s.mem a k)) := by
  induction k generalizing n a s with
  | zero =>
    rw [string.first_zero, putspLoop_done]
    exact s.outAll_nil.symm
  | succ k ih =>
    obtain ⟨n, rfl⟩ : ∃ m, n = m + 1 := ⟨n - 1, by omega⟩
    have next : memRead (a + 1) (s.out (lowByte (s.mem.read a))) =
        (s.mem.read (a + 1), s.out (lowByte (s.mem.read a))) := memRead_pure string.rest.first_plain
    rw [wordsAt_succ, packedBytes_cons]
    by_cases last : wordsAt s.mem (a + 1) k = [] ∧ highByte (s.mem.read a) = 0
    · have zero := string.second_zero_iff.2 last.1
      rw [if_pos last, putspLoop_half n string.first_nonzero (by rwa [next]) last.2, next, last.1]
      rfl
    · rw [if_neg last, putspLoop_both n string.first_nonzero (by rwa [next, string.second_zero_iff]), next]
      have rest := string.rest.outAll [lowByte (s.mem.read a), highByte (s.mem.read a)]
      exact (congrArg _ (s.out_out _ _)).trans
        ((ih rest (Nat.le_of_succ_le_succ enough)).trans (State.outAll_outAll _ _ _))

/-- Output is all that a string which does not lie over `KBSR_ADDR` changes. -/
theorem State.outAll_frame (s : State) (bs : List Byte) :
    (s.outAll bs).flushed = s.flushed ∧ RegsKeptBut [] s (s.outAll bs) ∧ (s.outAll bs).cond = s.cond ∧
      (s.outAll bs).pc = s.pc ∧ MemoryKept s (s.outAll bs) ∧ ControlKept s (s.outAll bs) ∧
      InputKept s (s.outAll bs) :=
  ⟨rfl, fun _ _ => rfl, rfl, rfl, fun _ => rfl, ⟨rfl, rfl, rfl, rfl⟩, ⟨rfl, rfl, rfl⟩⟩

/-- Settles O37: the string is shorter than a lap of the memory, so within the bound (R133). -/
theorem putsPrintsTheString : Obligations.PutsPrintsTheString := by
  intro s k string
  refine ⟨_, exec_puts s, ?_⟩
  rw [putsLoop_of_stringAt string string.length_lt_readBound]
  exact ⟨rfl, s.outAll_frame _⟩

/-- Settles O40: as O37, two bytes a word (R135, D12). -/
theorem putspPrintsThePackedString : Obligations.PutspPrintsThePackedString := by
  intro s k string
  refine ⟨_, exec_putsp s, ?_⟩
  rw [memRead_pure string.first_plain, putspLoop_of_stringAt string string.length_lt_readBound.le]
  exact ⟨rfl, s.outAll_frame _⟩

/-! ### The loops as R133 and R135 write them -/

/-- Where the loop of PUTS is cut makes no difference to a string that ends before both cuts. -/
theorem putsLoop_eq_of_completes {m n : Nat} {a : Word} {s : State} (noRoutine : s.routine = none)
    (first : (putsLoop m a s).routine = none) (second : (putsLoop n a s).routine = none) :
    putsLoop m a s = putsLoop n a s := by
  obtain ⟨-, left⟩ | ⟨a', cut, -⟩ := putsLoop_add m n a noRoutine
  · obtain ⟨-, right⟩ | ⟨a', cut, -⟩ := putsLoop_add n m a noRoutine
    · rw [← left, Nat.add_comm, right]
    · cases second.symm.trans cut
  · cases first.symm.trans cut

theorem putspLoop_eq_of_completes {m n : Nat} {w a : Word} {s : State} (noRoutine : s.routine = none)
    (first : (putspLoop m w a s).routine = none) (second : (putspLoop n w a s).routine = none) :
    putspLoop m w a s = putspLoop n w a s := by
  obtain ⟨-, left⟩ | ⟨w', a', cut, -⟩ := putspLoop_add m n w a noRoutine
  · obtain ⟨-, right⟩ | ⟨w', a', cut, -⟩ := putspLoop_add n m w a noRoutine
    · rw [← left, Nat.add_comm, right]
    · cases second.symm.trans cut
  · cases first.symm.trans cut

theorem printsWords_of_putsLoop {n : Nat} {a : Word} {s : State} (completes : (putsLoop n a s).routine = none) :
    PrintsWords a s (putsLoop n a s) := by
  induction n generalizing a s with
  | zero => cases completes
  | succ n ih =>
    by_cases zero : (memRead a s).1 = 0
    · rw [putsLoop_stop n zero]
      exact .stop a s zero
    · rw [putsLoop_char n zero] at completes ⊢
      exact .char a s _ zero (ih completes)

theorem exists_putsLoop_of_printsWords {a : Word} {s t : State} (prints : PrintsWords a s t) :
    t.routine = s.routine ∧ ∃ n, putsLoop n a s = t := by
  induction prints with
  | stop a s zero => exact ⟨memRead_routine a s, 1, putsLoop_stop 0 zero⟩
  | char a s t nonzero _ ih =>
    obtain ⟨routine, n, loops⟩ := ih
    exact ⟨routine.trans (memRead_routine a s), n + 1, (putsLoop_char n nonzero).trans loops⟩

theorem printsPacked_of_putspLoop {n : Nat} {w a : Word} {s : State}
    (completes : (putspLoop n w a s).routine = none) : PrintsPacked w a s (putspLoop n w a s) := by
  by_cases done : w = 0
  · rw [done, putspLoop_done]
    exact .stop a s
  induction n generalizing w a s with
  | zero =>
    rw [putspLoop, if_neg done] at completes
    cases completes
  | succ n ih =>
    by_cases zero : (memRead (a + 1) (s.out (lowByte w))).1 = 0
    · by_cases high : highByte w = 0
      · rw [putspLoop_half n done zero high]
        exact .half w a s done zero high
      · rw [putspLoop_both n done fun last => high last.2, zero, putspLoop_done]
        refine .both w a s _ done (fun last => high last.2) ?_
        rw [zero]
        exact .stop _ _
    · rw [putspLoop_both n done fun last => zero last.1] at completes ⊢
      exact .both w a s _ done (fun last => zero last.1) (ih completes zero)

theorem exists_putspLoop_of_printsPacked {w a : Word} {s t : State} (prints : PrintsPacked w a s t) :
    t.routine = s.routine ∧ ∃ n, putspLoop n w a s = t := by
  induction prints with
  | stop a s => exact ⟨rfl, 0, putspLoop_done 0 a s⟩
  | half w a s nonzero zero high => exact ⟨memRead_routine _ _, 1, putspLoop_half 0 nonzero zero high⟩
  | both w a s t nonzero notLast _ ih =>
    obtain ⟨routine, n, loops⟩ := ih
    exact ⟨routine.trans (memRead_routine _ _), n + 1, (putspLoop_both n nonzero notLast).trans loops⟩

/-! ### Strings without an end (R190) -/

/-- A PUTS that has not completed is left at the address reached. -/
theorem putsLoop_routine_of_unfinished {n : Nat} {a : Word} {s : State} (noRoutine : s.routine = none)
    (unfinished : (putsLoop n a s).routine ≠ none) : ∃ a', (putsLoop n a s).routine = some (.puts a') := by
  obtain ⟨completes, -⟩ | ⟨a', runsOn, -⟩ := putsLoop_add n 0 a noRoutine
  · exact absurd completes unfinished
  · exact ⟨a', runsOn⟩

theorem putspLoop_word_ne_zero {n : Nat} {w a w' a' : Word} {s : State} (noRoutine : s.routine = none)
    (runsOn : (putspLoop n w a s).routine = some (.putsp w' a')) : w' ≠ 0 := by
  induction n generalizing w a s with
  | zero =>
    rw [putspLoop] at runsOn
    split at runsOn
    · cases noRoutine.symm.trans runsOn
    · cases runsOn
      assumption
  | succ n ih =>
    rw [putspLoop] at runsOn
    split at runsOn
    · cases noRoutine.symm.trans runsOn
    · refine ih ?_ runsOn
      split <;> exact (memRead_routine _ _).trans noRoutine

/-- A PUTSP that has not completed is left at an address reached, with a word other than zero. -/
theorem putspLoop_routine_of_unfinished {n : Nat} {w a : Word} {s : State} (noRoutine : s.routine = none)
    (unfinished : (putspLoop n w a s).routine ≠ none) :
    ∃ w' a', w' ≠ 0 ∧ (putspLoop n w a s).routine = some (.putsp w' a') := by
  obtain ⟨completes, -⟩ | ⟨w', a', runsOn, -⟩ := putspLoop_add n 0 w a noRoutine
  · exact absurd completes unfinished
  · exact ⟨w', a', putspLoop_word_ne_zero noRoutine runsOn, runsOn⟩

/-- An endless string does not complete in any number of reads. -/
theorem Endless.putsLoop_unfinished {s : State} (endless : Endless s) (canonical : s.mem.wf) (wf : s.cfg.wf)
    (noRoutine : s.routine = none) (n : Nat) (a : Word) : (Machine.putsLoop n a s).routine ≠ none := by
  rw [Ne, putsLoop_routine noRoutine, endless.endsWithin canonical wf n a]
  exact Bool.false_ne_true

theorem Endless.putspLoop_unfinished {s : State} (endless : Endless s) (canonical : s.mem.wf) (wf : s.cfg.wf)
    (noRoutine : s.routine = none) (n : Nat) {w : Word} (nonzero : w ≠ 0) (a : Word) :
    (Machine.putspLoop n w a s).routine ≠ none := by
  rw [Ne, putspLoop_routine noRoutine, endless.endsWithin canonical wf n _, not_or]
  exact ⟨nonzero, Bool.false_ne_true⟩

/-- A string that ends ends within the bound: past it the string would be endless, whatever the number of reads. -/
theorem putsLoop_completes_within_bound {n : Nat} {a : Word} {s : State} (noRoutine : s.routine = none)
    (canonical : s.mem.wf) (wf : s.cfg.wf) (completes : (putsLoop n a s).routine = none) :
    (putsLoop (readBound s) a s).routine = none := by
  by_contra unfinished
  have frame := putsLoop_routineFrame (readBound s) a s
  have endless := putsLoop_endless noRoutine canonical wf unfinished
  obtain ⟨finished, -⟩ | ⟨a', -, goesOn⟩ := putsLoop_add (readBound s) n a noRoutine
  · exact unfinished finished
  · refine (endless.setRoutine none).putsLoop_unfinished (frame.canonical canonical)
      (frame.cfg ▸ wf : (putsLoop (readBound s) a s).cfg.wf) rfl n a' ?_
    obtain ⟨-, same⟩ | ⟨a'', cut, -⟩ := putsLoop_add n (readBound s) a noRoutine
    · rw [← goesOn, Nat.add_comm, same, completes]
    · cases completes.symm.trans cut

/-- As for PUTS, for a bound past which the string is known to be endless. -/
theorem putspLoop_completes_within {bound n : Nat} {w a : Word} {s : State} (noRoutine : s.routine = none)
    (canonical : s.mem.wf) (wf : s.cfg.wf)
    (endless : (putspLoop bound w a s).routine ≠ none → Endless (putspLoop bound w a s))
    (completes : (putspLoop n w a s).routine = none) : (putspLoop bound w a s).routine = none := by
  by_contra unfinished
  have frame := putspLoop_routineFrame bound w a s
  obtain ⟨finished, -⟩ | ⟨w', a', cut, goesOn⟩ := putspLoop_add bound n w a noRoutine
  · exact unfinished finished
  · refine ((endless unfinished).setRoutine none).putspLoop_unfinished (frame.canonical canonical)
      (frame.cfg ▸ wf : (putspLoop bound w a s).cfg.wf) rfl n (putspLoop_word_ne_zero noRoutine cut) a' ?_
    obtain ⟨-, same⟩ | ⟨w'', a'', cut, -⟩ := putspLoop_add n bound w a noRoutine
    · rw [← goesOn, Nat.add_comm, same, completes]
    · cases completes.symm.trans cut

/-- A PUTSP that goes on with a word already read and has not completed has come to a string without an end. -/
theorem putspLoop_endless_of_word {w a : Word} {s : State} (noRoutine : s.routine = none) (canonical : s.mem.wf)
    (wf : s.cfg.wf) (unfinished : (putspLoop (readBound s) w a s).routine ≠ none) :
    Endless (putspLoop (readBound s) w a s) := by
  rw [Ne, putspLoop_routine noRoutine, not_or, Bool.not_eq_true] at unfinished
  obtain ⟨nonzero, endsNot⟩ := unfinished
  refine (nearlyEndless_of_bound canonical wf endsNot).putspLoop canonical wf nonzero ?_ endsNot
  have := wordDistance_lt (add16 a 1) s.cfg.kbsrAddr
  rw [readBound]
  omega

theorem putsLoop_readBound_iff {a : Word} {s t : State} (noRoutine : s.routine = none) (canonical : s.mem.wf)
    (wf : s.cfg.wf) : (putsLoop (readBound s) a s = t ∧ t.routine = none) ↔ PrintsWords a s t := by
  constructor
  · rintro ⟨rfl, completes⟩
    exact printsWords_of_putsLoop completes
  · intro prints
    obtain ⟨routine, n, rfl⟩ := exists_putsLoop_of_printsWords prints
    have completes := routine.trans noRoutine
    have within := putsLoop_completes_within_bound noRoutine canonical wf completes
    exact ⟨putsLoop_eq_of_completes noRoutine within completes, completes⟩

theorem putspLoop_bound_iff {bound : Nat} {w a : Word} {s t : State} (noRoutine : s.routine = none)
    (canonical : s.mem.wf) (wf : s.cfg.wf)
    (endless : (putspLoop bound w a s).routine ≠ none → Endless (putspLoop bound w a s)) :
    (putspLoop bound w a s = t ∧ t.routine = none) ↔ PrintsPacked w a s t := by
  constructor
  · rintro ⟨rfl, completes⟩
    exact printsPacked_of_putspLoop completes
  · intro prints
    obtain ⟨routine, n, rfl⟩ := exists_putspLoop_of_printsPacked prints
    have completes := routine.trans noRoutine
    have within := putspLoop_completes_within noRoutine canonical wf endless completes
    exact ⟨putspLoop_eq_of_completes noRoutine within completes, completes⟩

theorem next_inj {s t : State} : (Host.Outcome.next s : Host.Outcome State Fault Refusal) = .next t ↔ s = t :=
  ⟨fun same => by cases same; rfl, congrArg _⟩

/-- Settles O36: within the bound the loop of the model is the loop of the rule, cut off only where it never ends. -/
theorem putsIsItsLoop : Obligations.PutsIsItsLoop := by
  refine ⟨fun s t noRoutine canonical wf => ?_, fun s t a running runsOn canonical wf => ?_⟩
  · rw [exec_puts, next_inj]
    exact putsLoop_readBound_iff noRoutine canonical wf
  · rw [step_of_routine running runsOn, next_inj]
    exact putsLoop_readBound_iff (s := s.setRoutine none) rfl canonical wf

/-- Settles O39: as O36; the bound of the instruction counts its first read, that of a PUTSP that runs on the next. -/
theorem putspIsItsLoop : Obligations.PutspIsItsLoop := by
  refine ⟨fun s t noRoutine canonical wf => ?_, fun s t w a running runsOn canonical wf => ?_⟩
  · rw [exec_putsp, next_inj]
    exact putspLoop_bound_iff ((memRead_routine _ s).trans noRoutine) (memRead_wf _ canonical)
      ((memRead_cfg _ s).symm ▸ wf) (putspLoop_endless noRoutine canonical wf)
  · rw [step_of_routine running runsOn, next_inj]
    exact putspLoop_bound_iff (s := s.setRoutine none) rfl canonical wf
      (putspLoop_endless_of_word (s := s.setRoutine none) rfl canonical wf)

end Sys2Proof.Machine
end

section
namespace Sys2Proof.Machine

/-! ## 00_scope.md: an instruction is one step (R6) -/

/-! ### How far an endless string gets (R190) -/

/-- PUTS prints a byte for every word of an endless string. -/
theorem Endless.putsLoop_output_length {s : State} (endless : Endless s) (canonical : s.mem.wf) (wf : s.cfg.wf)
    (n : Nat) (a : Word) : (Machine.putsLoop n a s).output.length = s.output.length + n := by
  induction n generalizing a s with
  | zero => rfl
  | succ n ih =>
    rw [putsLoop_char n (endless.read_ne_zero wf a), ih ((endless.memRead canonical wf a).out _)
      (memRead_wf a canonical) ((memRead_cfg a s).symm ▸ wf), State.out_output, memRead_output, List.length_append, List.length_singleton]
    omega

/-- A poll of an endless string consumes a byte. -/
theorem Endless.poll_consumed {s : State} (endless : Endless s) :
    (Machine.memRead s.cfg.kbsrAddr s).2.consumed = s.consumed + 1 := by
  obtain ⟨elsewhere, -⟩ | ⟨b, rest, -, -, -, reads⟩ := endless.memRead_cases s.cfg.kbsrAddr
  · exact absurd rfl elsewhere
  · rw [reads]
    rfl

/-- Reads that reach the status cell consume a byte. -/
theorem Endless.putsLoop_consumes {s : State} (endless : Endless s) (canonical : s.mem.wf) (wf : s.cfg.wf) {n : Nat}
    {a : Word} (reaches : wordDistance a s.cfg.kbsrAddr < n) : s.consumed + 1 ≤ (Machine.putsLoop n a s).consumed := by
  induction n generalizing a s with
  | zero => exact absurd reaches (Nat.not_lt_zero _)
  | succ n ih =>
    rw [putsLoop_char n (endless.read_ne_zero wf a)]
    by_cases poll : a = s.cfg.kbsrAddr
    · rw [poll, ← endless.poll_consumed]
      exact putsLoop_consumed_le n _ ((Machine.memRead s.cfg.kbsrAddr s).2.out _)
    · have distance := wordDistance_succ poll
      refine le_trans (Nat.succ_le_succ (memRead_consumed_le a s)) (ih ((endless.memRead canonical wf a).out _)
        (memRead_wf a canonical) ((memRead_cfg a s).symm ▸ wf) ?_)
      rw [State.out_cfg, memRead_cfg]
      exact Nat.lt_of_succ_lt_succ (distance.trans_lt reaches)

/-- One round of PUTSP over an endless string prints both bytes and goes on with an endless string. -/
theorem Endless.putspLoop_succ {s : State} (endless : Endless s) (canonical : s.mem.wf) (wf : s.cfg.wf) (n : Nat)
    {w : Word} (nonzero : w ≠ 0) (a : Word) : ∃ w' s', w' ≠ 0 ∧ Endless s' ∧ s'.mem.wf ∧ s'.cfg = s.cfg ∧
      s'.output = s.output ++ [lowByte w, highByte w] ∧ s'.consumed = (Machine.memRead (a + 1) s).2.consumed ∧
      Machine.putspLoop (n + 1) w a s = Machine.putspLoop n w' (a + 1) s' := by
  have nextNonzero := (endless.out (lowByte w)).read_ne_zero wf (a + 1)
  refine ⟨_, (Machine.memRead (a + 1) (s.out (lowByte w))).2.out (highByte w), nextNonzero,
    ((endless.out _).memRead canonical wf (a + 1)).out _, memRead_wf (a + 1) canonical, memRead_cfg _ _, ?_, ?_,
    putspLoop_both n nonzero fun last => nextNonzero last.1⟩
  · rw [State.out_output, memRead_output, State.out_output, List.append_assoc]
    rfl
  · rw [State.out_consumed, memRead_out, State.out_consumed]

/-- PUTSP prints two bytes for every word of an endless string. -/
theorem Endless.putspLoop_output_length {s : State} (endless : Endless s) (canonical : s.mem.wf) (wf : s.cfg.wf)
    (n : Nat) {w : Word} (nonzero : w ≠ 0) (a : Word) :
    (Machine.putspLoop n w a s).output.length = s.output.length + 2 * n := by
  induction n generalizing w a s with
  | zero =>
    rw [Machine.putspLoop, if_neg nonzero]
    rfl
  | succ n ih =>
    obtain ⟨w', s', nonzero', endless', canonical', cfg, output, -, round⟩ :=
      endless.putspLoop_succ canonical wf n nonzero a
    rw [round, ih endless' canonical' (cfg ▸ wf) nonzero', output, List.length_append]
    simp only [List.length_cons, List.length_nil]
    omega

theorem Endless.putspLoop_consumes {s : State} (endless : Endless s) (canonical : s.mem.wf) (wf : s.cfg.wf) {n : Nat}
    {w a : Word} (nonzero : w ≠ 0) (reaches : wordDistance (a + 1) s.cfg.kbsrAddr < n) :
    s.consumed + 1 ≤ (Machine.putspLoop n w a s).consumed := by
  induction n generalizing w a s with
  | zero => exact absurd reaches (Nat.not_lt_zero _)
  | succ n ih =>
    obtain ⟨w', s', nonzero', endless', canonical', cfg, -, consumed, round⟩ :=
      endless.putspLoop_succ canonical wf n nonzero a
    rw [round]
    by_cases poll : a + 1 = s.cfg.kbsrAddr
    · rw [poll, endless.poll_consumed] at consumed
      exact consumed ▸ putspLoop_consumed_le n w' (a + 1) s'
    · have distance := wordDistance_succ poll
      refine le_trans (Nat.succ_le_succ (consumed ▸ memRead_consumed_le (a + 1) s))
        (ih endless' canonical' (cfg ▸ wf) nonzero' ?_)
      rw [cfg]
      exact Nat.lt_of_succ_lt_succ (distance.trans_lt reaches)

/-! ### Inside a step that never ends -/

/-- `t` is inside a PUTS or PUTSP over a string without an end (R133, R190). -/
structure PrintsForEver (t : State) : Prop where
  running : t.run = .running
  canonical : t.mem.wf
  parameters : t.cfg.wf
  endless : Endless t
  routine : (∃ a, t.routine = some (.puts a)) ∨ ∃ w a, w ≠ 0 ∧ t.routine = some (.putsp w a)

theorem PrintsForEver.unfinished {t : State} (forEver : PrintsForEver t) : t.routine ≠ none := by
  obtain ⟨a, isPuts⟩ | ⟨w, a, -, isPutsp⟩ := forEver.routine
  · rw [isPuts]
    nofun
  · rw [isPutsp]
    nofun

/-- What a lap of an endless string does: it prints and consumes, and keeps the frame of a routine. -/
structure LapFrame (s t : State) : Prop extends RoutineFrame [] s t where
  prints : s.output.length + 65536 ≤ t.output.length
  consumes : s.consumed + 1 ≤ t.consumed

theorem LapFrame.after {s t u : State} (first : RoutineFrame [] s t) (lap : LapFrame t u) : LapFrame s u where
  toRoutineFrame := first.trans lap.toRoutineFrame
  prints := (Nat.add_le_add_right first.output.length_le _).trans lap.prints
  consumes := (Nat.succ_le_succ first.consumed).trans lap.consumes

theorem Endless.putsLoop_lap {s : State} (endless : Endless s) (canonical : s.mem.wf) (wf : s.cfg.wf)
    (running : s.run = .running) (noRoutine : s.routine = none) {n : Nat} (lap : 65536 ≤ n) (a : Word) :
    PrintsForEver (Machine.putsLoop n a s) ∧ LapFrame s (Machine.putsLoop n a s) := by
  have frame := putsLoop_routineFrame n a s
  refine ⟨⟨frame.run.trans running, frame.canonical canonical, frame.cfg ▸ wf, endless.putsLoop canonical wf n a,
    .inl (putsLoop_routine_of_unfinished noRoutine (endless.putsLoop_unfinished canonical wf noRoutine n a))⟩,
    frame, ?_, endless.putsLoop_consumes canonical wf ((wordDistance_lt a _).trans_le lap)⟩
  rw [endless.putsLoop_output_length canonical wf]
  omega

theorem Endless.putspLoop_lap {s : State} (endless : Endless s) (canonical : s.mem.wf) (wf : s.cfg.wf)
    (running : s.run = .running) (noRoutine : s.routine = none) {n : Nat} (lap : 65536 ≤ n) {w : Word} (nonzero : w ≠ 0)
    (a : Word) : PrintsForEver (Machine.putspLoop n w a s) ∧ LapFrame s (Machine.putspLoop n w a s) := by
  have frame := putspLoop_routineFrame n w a s
  refine ⟨⟨frame.run.trans running, frame.canonical canonical, frame.cfg ▸ wf, endless.putspLoop canonical wf n w a,
    .inr (putspLoop_routine_of_unfinished noRoutine (endless.putspLoop_unfinished canonical wf noRoutine n nonzero a))⟩,
    frame, ?_, endless.putspLoop_consumes canonical wf nonzero ((wordDistance_lt (a + 1) _).trans_le lap)⟩
  rw [endless.putspLoop_output_length canonical wf n nonzero]
  omega

theorem lap_le_readBound (s : State) : 65536 ≤ readBound s := by
  rw [readBound]
  omega

/-- Following the step of an endless string goes on for at least a lap. -/
theorem PrintsForEver.step {t : State} (forEver : PrintsForEver t) :
    ∃ u, step t = .next u ∧ PrintsForEver u ∧ LapFrame t u := by
  have cleared := t.setRoutine_routineFrame [] none
  have endless := forEver.endless.setRoutine none
  obtain ⟨a, isPuts⟩ | ⟨w, a, nonzero, isPutsp⟩ := forEver.routine
  · obtain ⟨next, lap⟩ := endless.putsLoop_lap forEver.canonical forEver.parameters forEver.running rfl
      (lap_le_readBound t) a
    exact ⟨_, step_of_routine forEver.running isPuts, next, .after cleared lap⟩
  · obtain ⟨next, lap⟩ := endless.putspLoop_lap forEver.canonical forEver.parameters forEver.running rfl
      (lap_le_readBound t) nonzero a
    exact ⟨_, step_of_routine forEver.running isPutsp, next, .after cleared lap⟩

/-! ### Endless strings -/

theorem ByteAlways.endless {s : State} (bytes : ByteAlways s) (apart : s.cfg.kbdrAddr ≠ s.cfg.kbsrAddr)
    (words : ∀ a, a ≠ s.cfg.kbsrAddr → s.mem.read a ≠ 0) : Endless s := by
  obtain ⟨listed, cycle, repeated⟩ := bytes
  have endsNot {x : Option Byte} (byte : ∃ b : Byte, x = some b ∧ b ≠ 0) : ¬EndsString x := by
    obtain ⟨b, rfl, nonzero⟩ := byte
    simpa [EndsString] using nonzero
  exact ⟨⟨fun a notStatus _ => words a notStatus, fun x hx => endsNot (listed x hx), cycle,
    fun x hx => endsNot (repeated x hx)⟩, words _ apart⟩

/-- `t` is what PUTS or PUTSP begun in `s` has come to after at least `k` laps. -/
structure PrintedFor (s : State) (k : Nat) (t : State) : Prop where
  forEver : PrintsForEver t
  frame : RoutineFrame [] s t
  prints : s.output.length + 65536 * k ≤ t.output.length
  consumes : s.consumed + k ≤ t.consumed

theorem PrintedFor.step {s t : State} {k : Nat} (printed : PrintedFor s k t) :
    ∃ u, step t = .next u ∧ PrintedFor s (k + 1) u := by
  obtain ⟨u, steps, forEver, lap⟩ := printed.forEver.step
  refine ⟨u, steps, forEver, printed.frame.trans lap.toRoutineFrame, ?prints,
    (Nat.succ_le_succ printed.consumes).trans lap.consumes⟩
  case prints =>
    rw [Nat.mul_succ, ← Nat.add_assoc]
    exact (Nat.add_le_add_right printed.prints _).trans lap.prints

theorem LapFrame.printedFor {s t : State} (lap : LapFrame s t) (forEver : PrintsForEver t) : PrintedFor s 1 t where
  forEver := forEver
  frame := lap.toRoutineFrame
  prints := by rw [Nat.mul_one]; exact lap.prints
  consumes := lap.consumes

/-- PUTS and PUTSP begun over an endless string make a lap in their first step. -/
theorem Endless.exec_printedFor {i : Instr} {s : State} (endless : Endless s) (isString : i = .puts ∨ i = .putsp)
    (running : s.run = .running) (noRoutine : s.routine = none) (canonical : s.mem.wf) (wf : s.cfg.wf) :
    ∃ t, exec i s = .next t ∧ PrintedFor s 1 t := by
  obtain rfl | rfl := isString
  · obtain ⟨forEver, lap⟩ := endless.putsLoop_lap canonical wf running noRoutine (lap_le_readBound s) (s.reg .r0)
    exact ⟨_, exec_puts s, lap.printedFor forEver⟩
  · obtain ⟨forEver, lap⟩ := (endless.memRead canonical wf (s.reg .r0)).putspLoop_lap (memRead_wf _ canonical)
      ((memRead_cfg _ s).symm ▸ wf) ((memRead_run _ s).trans running) ((memRead_routine _ s).trans noRoutine)
      (lap_le_readBound s) (endless.read_ne_zero wf _) (s.reg .r0)
    exact ⟨_, exec_putsp s, (LapFrame.after (memRead_routineFrame _ s) lap).printedFor forEver⟩

/-- Settles O41: a lap for the instruction, then one for every further step (R133, R190). -/
theorem endlessStringsAreNeverCompleted : Obligations.EndlessStringsAreNeverCompleted := by
  intro i s isString running noRoutine canonical wf words bytes
  have endless := bytes.endless (Ne.symm wf.1) words
  obtain ⟨s1, execs, first⟩ := endless.exec_printedFor isString running noRoutine canonical wf
  refine ⟨s1, execs, fun n => ?_⟩
  obtain ⟨t, runs, forEver, frame, prints, consumes⟩ := core_run_invariant first (fun _ _ => PrintedFor.step) n
  rw [Nat.add_comm 1 n] at prints consumes
  exact ⟨t, runs, forEver.running, forEver.unfinished, prints, consumes, frame.regs, frame.pc, frame.cond⟩

/-! ### Every instruction -/

/-- `t` is inside a step that never ends. -/
def NeverEnds (t : State) : Prop := PrintsForEver t ∨ Waits t

theorem waits_of_readIntoR0 {s : State} (running : s.run = .running) (noRoutine : s.routine = none)
    (unfinished : (readIntoR0 s).routine ≠ none) : Waits (readIntoR0 s) := by
  obtain ⟨listed, repeated, -⟩ | ⟨n, b, rest, -, reads⟩ | ⟨n, b, rest, -, -, reads⟩ := inRead_cases s
  · rw [readIntoR0_of_noByteEver ⟨listed, repeated⟩]
    exact ⟨running, .inl rfl, listed, repeated⟩
  · rw [readIntoR0, reads] at unfinished
    exact absurd noRoutine unfinished
  · rw [readIntoR0, reads] at unfinished
    exact absurd noRoutine unfinished

theorem waits_of_readEchoIntoR0 {s : State} (running : s.run = .running) (noRoutine : s.routine = none)
    (unfinished : (readEchoIntoR0 s).routine ≠ none) : Waits (readEchoIntoR0 s) := by
  obtain ⟨listed, repeated, -⟩ | ⟨n, b, rest, -, reads⟩ | ⟨n, b, rest, -, -, reads⟩ := inRead_cases s
  · rw [readEchoIntoR0_of_noByteEver ⟨listed, repeated⟩]
    exact ⟨running, .inr rfl, listed, repeated⟩
  · rw [readEchoIntoR0, reads] at unfinished
    exact absurd noRoutine unfinished
  · rw [readEchoIntoR0, reads] at unfinished
    exact absurd noRoutine unfinished

/-- An instruction that has not completed prints for ever or waits for ever, `pc` being kept: a routine that runs on was
begun by one of four instructions. -/
theorem exec_unfinished {i : Instr} {s t : State} (running : s.run = .running) (noRoutine : s.routine = none)
    (canonical : s.mem.wf) (wf : s.cfg.wf) (execs : exec i s = .next t) (unfinished : t.routine ≠ none) :
    NeverEnds t ∧ t.pc = s.pc := by
  cases performs_of_exec execs with
  | writes v _ _ reads =>
    obtain ⟨-, -, -, control, -⟩ := reads.loadFrame []
    exact absurd (control.routine.trans noRoutine) unfinished
  | jumps | calls | halts | faults => exact absurd noRoutine unfinished
  | stores a v _ _ _ reads =>
    obtain ⟨-, -, -, control, -⟩ := reads.loadFrame []
    exact absurd (control.routine.trans noRoutine) unfinished
  | prints isRoutine frame =>
    refine ⟨.inl ?_, frame.pc⟩
    have running' := frame.run.trans running
    have canonical' := frame.canonical canonical
    have wf' : t.cfg.wf := frame.cfg ▸ wf
    obtain rfl | rfl | rfl := isRoutine
    · cases execs
      exact absurd noRoutine unfinished
    · cases execs
      exact ⟨running', canonical', wf', putsLoop_endless noRoutine canonical wf unfinished,
        .inl (putsLoop_routine_of_unfinished noRoutine unfinished)⟩
    · cases execs
      exact ⟨running', canonical', wf', putspLoop_endless noRoutine canonical wf unfinished,
        .inr (putspLoop_routine_of_unfinished ((memRead_routine _ s).trans noRoutine) unfinished)⟩
  | inputs isRoutine frame =>
    refine ⟨.inr ?_, frame.pc⟩
    obtain rfl | rfl := isRoutine
    · cases execs
      exact waits_of_readIntoR0 running noRoutine unfinished
    · cases execs
      exact waits_of_readEchoIntoR0 (s := s.outAll s.cfg.inPrompt) running noRoutine unfinished

theorem Waits.unfinished {t : State} (waits : Waits t) : t.routine ≠ none := by
  obtain isGetc | isIn := waits.routine
  · rw [isGetc]
    nofun
  · rw [isIn]
    nofun

/-- A step that prints or waits for ever goes on to do so, at the same `pc`. -/
theorem step_of_neverEnds {t : State} (neverEnds : NeverEnds t) :
    ∃ u, step t = .next u ∧ NeverEnds u ∧ u.pc = t.pc := by
  obtain forEver | waits := neverEnds
  · obtain ⟨u, steps, next, lap⟩ := forEver.step
    exact ⟨u, steps, .inl next, lap.pc⟩
  · exact ⟨t, waits.step, .inr waits, rfl⟩

/-- Settles O46: what has not completed never ends, and what runs on keeps the frame of a routine (R6). -/
theorem anInstructionIsOneStep : Obligations.AnInstructionIsOneStep := by
  refine ⟨fun i s t running noRoutine canonical wf execs unfinished n => ?_, fun s t w running runsOn steps => ?_⟩
  · obtain ⟨u, runs, neverEnds, pc⟩ := core_run_invariant (P := fun _ u => NeverEnds u ∧ u.pc = s.pc)
      (k := 0) (exec_unfinished running noRoutine canonical wf execs unfinished)
      (fun _ u ⟨neverEnds, pc⟩ => (step_of_neverEnds neverEnds).imp fun _ ⟨steps, next, pc'⟩ =>
        ⟨steps, next, pc'.trans pc⟩) n
    exact ⟨u, runs, neverEnds.elim PrintsForEver.unfinished Waits.unfinished,
      neverEnds.elim PrintsForEver.running Waits.running, pc⟩
  · cases steps.symm.trans (step_of_routine running runsOn)
    obtain ⟨frame, keepsAll⟩ := resume_routineFrame w s
    exact ⟨frame.pc, frame.cond, frame.regs, fun notGetc notIn => (keepsAll notGetc notIn).regs .r0 List.not_mem_nil,
      frame.memory, frame.run.trans running, frame.fault, frame.flushed, frame.cfg, frame.inputCycle, frame.input,
      frame.output⟩

end Sys2Proof.Machine
end

section
namespace Sys2Proof.Machine

/-! ## 70_reset_and_hazards.md: the loader and the launch -/

/-! ### The words of an image (R181) -/

theorem bigEndianWords_length (image : List Byte) : (bigEndianWords image).length = image.length / 2 := by
  fun_induction bigEndianWords image with
  | case1 b0 b1 rest ih =>
    rw [List.length_cons, ih, List.length_cons, List.length_cons]
    omega
  | case2 image short =>
    match image, short with
    | [], _ => rfl
    | [_], _ => simp
    | b0 :: b1 :: rest, short => exact absurd rfl (short b0 b1 rest)

/-- The first byte of each word is its high half. -/
theorem bigEndianWords_getElem (image : List Byte) (i : Nat) (inside : i < (bigEndianWords image).length) :
    (bigEndianWords image)[i] = (imageByte image (2 * i) ++ imageByte image (2 * i + 1) : Word) := by
  fun_induction bigEndianWords image generalizing i with
  | case1 b0 b1 rest ih =>
    cases i with
    | zero => rfl
    | succ i => exact ih i (Nat.lt_of_succ_lt_succ inside)
  | case2 => exact absurd inside (Nat.not_lt_zero i)

/-! ### Words stored one after another (R182) -/

theorem storeWords_wf {m : Memory} (canonical : m.wf) (a : Word) (ws : List Word) : (storeWords a ws m).wf := by
  induction ws generalizing a m with
  | nil => exact canonical
  | cons w ws ih => exact ih (Memory.write_wf canonical a w) _

theorem storeWords_read_other {a x : Word} {ws : List Word} {m : Memory}
    (outside : ∀ i, i < ws.length → x ≠ a + BitVec.ofNat 16 i) : (storeWords a ws m).read x = m.read x := by
  induction ws generalizing a m with
  | nil => rfl
  | cons w ws ih =>
    have notFirst : x ≠ a := by simpa using outside 0 (Nat.succ_pos _)
    refine (ih fun i hi => ?_).trans (Memory.read_write_other m w notFirst)
    exact word_add_ofNat_succ a i ▸ outside (i + 1) (Nat.succ_lt_succ hi)

/-- Fewer than 65537 words do not overlap: each is read back. -/
theorem storeWords_read {a : Word} {ws : List Word} {m : Memory} (canonical : m.wf) (fits : ws.length ≤ 65536) (i : Nat)
    (inside : i < ws.length) : (storeWords a ws m).read (a + BitVec.ofNat 16 i) = ws[i] := by
  induction ws generalizing a m i with
  | nil => exact absurd inside (Nat.not_lt_zero i)
  | cons w ws ih =>
    rw [List.length_cons] at fits
    cases i with
    | zero =>
      rw [show a + BitVec.ofNat 16 0 = a from BitVec.add_zero a, storeWords, storeWords_read_other fun j hj same => ?_]
      · exact Memory.read_write_same canonical a w
      · have wraps := congrArg BitVec.toNat (same.trans (word_add_ofNat_succ a j).symm)
        rw [BitVec.toNat_add, BitVec.toNat_ofNat] at wraps
        have := a.isLt
        omega
    | succ i =>
      rw [word_add_ofNat_succ]
      exact ih (Memory.write_wf canonical a w) (by omega) i (Nat.lt_of_succ_lt_succ inside)

/-! ### Loading one image (R182, R183) -/

/-- An accepted image has an origin and data, which are stored from the origin on. -/
theorem loadImage_of_accepted {image : List Byte} (accepted : ImageAccepted image) (m : Memory) :
    loadImage image m = .ok (storeWords (imageOrigin image) (bigEndianWords (image.drop 2)) m) := by
  obtain ⟨long, even, fits⟩ := accepted
  match image, long with
  | b0 :: b1 :: rest, _ =>
    have count : (bigEndianWords rest).length = imageCount (b0 :: b1 :: rest) := bigEndianWords_length rest
    rw [loadImage, if_neg (by omega), bigEndianWords]
    simp only [count]
    exact if_neg fits

/-- An image that is not accepted is rejected, whatever memory holds. -/
theorem loadImage_of_not_accepted {image : List Byte} (rejected : ¬ImageAccepted image) :
    ∃ e, ∀ m, loadImage image m = .error e := by
  match image with
  | [] => exact ⟨.tooShort, fun _ => rfl⟩
  | [_] => exact ⟨.tooShort, fun _ => rfl⟩
  | b0 :: b1 :: rest =>
    by_cases odd : rest.length % 2 = 1
    · refine ⟨.oddLength, fun m => if_pos ⟨?_, Nat.le_add_left 2 rest.length⟩⟩
      simp only [List.length_cons]
      omega
    · have count : (bigEndianWords rest).length = imageCount (b0 :: b1 :: rest) := bigEndianWords_length rest
      have even : (b0 :: b1 :: rest).length % 2 = 0 := by
        simp only [List.length_cons]
        omega
      have past : 0xFFFF < (imageOrigin (b0 :: b1 :: rest)).toNat + imageCount (b0 :: b1 :: rest) :=
        Decidable.byContradiction fun fits => rejected ⟨Nat.le_add_left 2 rest.length, even, fits⟩
      refine ⟨.pastTop, fun m => ?_⟩
      rw [loadImage, if_neg (by omega), bigEndianWords]
      simp only [count]
      exact if_pos past

theorem accepted_of_loadImage {image : List Byte} {m m' : Memory} (loads : loadImage image m = .ok m') :
    ImageAccepted image := by
  by_contra rejected
  obtain ⟨e, fails⟩ := loadImage_of_not_accepted rejected
  cases (fails m).symm.trans loads

theorem loadImage_wf {image : List Byte} {m m' : Memory} (canonical : m.wf) (loads : loadImage image m = .ok m') :
    m'.wf := by
  cases (loadImage_of_accepted (accepted_of_loadImage loads) m).symm.trans loads
  exact storeWords_wf canonical _ _

/-- Settles O58: the data words lie from the origin on, and fewer than 65536 words do not overlap (R182). -/
theorem loaderStoresTheImage : Obligations.LoaderStoresTheImage := by
  intro image m canonical accepted
  have count : (bigEndianWords (image.drop 2)).length = imageCount image := by
    rw [bigEndianWords_length, List.length_drop, imageCount]
  have fits : imageCount image ≤ 65536 := by
    have := accepted.2.2
    omega
  refine ⟨_, loadImage_of_accepted accepted m, storeWords_wf canonical _ _, fun i hi => ?data,
    fun a outside => storeWords_read_other (count ▸ outside)⟩
  case data =>
    rw [storeWords_read canonical (count ▸ fits) i (count ▸ hi), bigEndianWords_getElem]
    simp only [imageByte, List.getD_eq_getElem?_getD, List.getElem?_drop]
    rw [show 2 + (2 * i + 1) = 3 + 2 * i by omega]

/-- Settles O59: `loadImage` answers memory or an error as the image is accepted or not. -/
theorem loaderRejectsExactlyBadImages : Obligations.LoaderRejectsExactlyBadImages := by
  refine fun image m => ⟨?_, fun rejected => (loadImage_of_not_accepted rejected).imp fun _ fails => fails m⟩
  rintro ⟨e, fails⟩ accepted
  cases (loadImage_of_accepted accepted m).symm.trans fails

/-! ### Loading images in order (R184) -/

theorem loadImages_append {images : List (Option (List Byte))} {m m1 : Memory} (loads : loadImages images m = .ok m1)
    (more : List (Option (List Byte))) : loadImages (images ++ more) m = loadImages more m1 := by
  induction images generalizing m with
  | nil =>
    cases loads
    rfl
  | cons x images ih =>
    cases x with
    | none => cases loads
    | some image =>
      rw [loadImages] at loads
      rw [List.cons_append, loadImages]
      cases first : loadImage image m with
      | error e => rw [first] at loads; cases loads
      | ok m' => rw [first] at loads; exact ih loads

theorem loadImages_singleton (image : List Byte) (m : Memory) : loadImages [some image] m = loadImage image m := by
  rw [loadImages]
  cases loadImage image m <;> rfl

/-- The image is there and acceptable. -/
def Loadable (x : Option (List Byte)) : Prop := ∃ image, x = some image ∧ ImageAccepted image

theorem not_loadable_iff {x : Option (List Byte)} : ¬Loadable x ↔ ∀ image, x = some image → ¬ImageAccepted image := by
  simp only [Loadable, not_exists, not_and]

theorem loadImages_ok_iff {images : List (Option (List Byte))} {m : Memory} :
    (∃ m', loadImages images m = .ok m') ↔ ∀ x ∈ images, Loadable x := by
  induction images generalizing m with
  | nil => exact iff_of_true ⟨m, rfl⟩ nofun
  | cons x images ih =>
    rw [List.forall_mem_cons]
    by_cases loadable : Loadable x
    · obtain ⟨image, rfl, accepted⟩ := id loadable
      rw [loadImages, loadImage_of_accepted accepted]
      exact ih.trans (iff_and_self.2 fun _ => loadable)
    · refine iff_of_false ?_ fun all => loadable all.1
      rintro ⟨m', loads⟩
      cases x with
      | none => cases loads
      | some image =>
        obtain ⟨e, fails⟩ := loadImage_of_not_accepted (not_loadable_iff.1 loadable image rfl)
        rw [loadImages, fails] at loads
        cases loads

theorem loadImages_wf {images : List (Option (List Byte))} {m m' : Memory} (canonical : m.wf)
    (loads : loadImages images m = .ok m') : m'.wf := by
  induction images generalizing m with
  | nil =>
    cases loads
    exact canonical
  | cons x images ih =>
    cases x with
    | none => cases loads
    | some image =>
      rw [loadImages] at loads
      cases first : loadImage image m with
      | error e => rw [first] at loads; cases loads
      | ok m1 => rw [first] at loads; exact ih (loadImage_wf canonical first) loads

/-! ### The launch (R180) -/

theorem launch_eq_next_iff {c : Config} {images : List (Option (List Byte))} {s : State} :
    launch c images = .next s ↔ ∃ m, loadImages images [] = .ok m ∧ s = (State.init c).setMem m := by
  rw [launch, show (State.init c).mem = [] from rfl]
  cases loadImages images [] with
  | ok m => simp [eq_comm]
  | error e => simp

theorem launch_refused_iff {c : Config} {images : List (Option (List Byte))} :
    (∃ e, launch c images = .refused (.launchRefused e)) ↔ ¬∃ m, loadImages images [] = .ok m := by
  rw [launch, show (State.init c).mem = [] from rfl]
  cases loadImages images [] with
  | ok m => simp
  | error e => simp

theorem launch_accepts_iff {c : Config} {images : List (Option (List Byte))} :
    (∃ s, launch c images = .next s) ↔ ∀ x ∈ images, Loadable x := by
  simp only [launch_eq_next_iff, ← loadImages_ok_iff (m := [])]
  exact ⟨fun ⟨_, m, loads, _⟩ => ⟨m, loads⟩, fun ⟨m, loads⟩ => ⟨_, m, loads, rfl⟩⟩

/-- Settles O60: loading is a fold over the images; a launch is refused exactly where the fold fails (R184, R168). -/
theorem imagesAreLoadedInOrder : Obligations.ImagesAreLoadedInOrder := by
  refine ⟨fun images image m m1 loads => (loadImages_append loads _).trans (loadImages_singleton image m1),
    fun c images => ⟨?_, launch_accepts_iff⟩⟩
  rw [launch_refused_iff, loadImages_ok_iff]
  simp only [not_forall, exists_prop, not_loadable_iff]

/-- Settles O56: an accepted launch is the initial state with the loaded memory (R24, R180). -/
theorem launchGivesTheResetState : Obligations.LaunchGivesTheResetState := by
  refine ⟨Memory.read_nil, rfl, fun c images s launched => ?_⟩
  obtain ⟨m, loads, rfl⟩ := launch_eq_next_iff.1 launched
  exact ⟨loads, fun r => by cases r <;> rfl, rfl, rfl, rfl, rfl, rfl, rfl, rfl, rfl, rfl⟩

/-- Settles O57: the first step fetches at `PC_START`; the word 0x0000 is a branch not taken (R25). -/
theorem firstInstructionIsAtPcStart : Obligations.FirstInstructionIsAtPcStart := by
  intro c images s launched notStatus
  obtain ⟨m, -, rfl⟩ := launch_eq_next_iff.1 launched
  have first := step_plain (s := (State.init c).setMem m) rfl rfl notStatus
  refine ⟨first, fun zero => ?_⟩
  rw [first]
  exact (congrArg (fun w => exec (decode c w) _) zero).trans (exec_decode_zero c _)

/-- Settles O55: launches meet the invariant, the host's answers take no part in it, and steps keep it (O53). -/
theorem reachableStatesMeetTheInvariant : Obligations.ReachableStatesMeetTheInvariant := by
  intro s reachable
  induction reachable with
  | launched c images s wf launched =>
    obtain ⟨m, loads, rfl⟩ := launch_eq_next_iff.1 launched
    exact State.init_setMem_inv wf (loadImages_wf Memory.wf_nil loads)
  | answers s i c _ _ ih => exact ⟨ih.memory, ih.recordIffFaulted, ih.record, ih.runsOn, ih.flush, ih.parameters⟩
  | stepped s t _ steps ih => exact stepsKeepTheInvariant s t ih steps

end Sys2Proof.Machine
end
